-- ==== Sys2Proof/Word.lean ====
section
/-! DEFINITION. The machine's words: bytes (general registers, CF, SP, DT, ST, memory cells), 16-bit words
(I, IP, stack entries, instruction words), and the small number ranges of operand fields (00_scope.md R9, R12). -/

namespace Sys2Proof

/-- An 8-bit register or memory cell (10_state.md section 1). -/
abbrev Byte := BitVec 8

/-- A 16-bit value: `I`, `IP`, a stack entry, an instruction word (10_state.md section 1). -/
abbrev Word := BitVec 16

/-- The 12-bit address field `nnn` of an instruction (00_scope.md R12). -/
abbrev Addr := BitVec 12

/-- A register number, an `x` or `y` field: every value 0 to 15 names a register (10_state.md R20). -/
abbrev Reg := Fin 16

/-- A key value the key-wait can report, 0 to 15 (00_scope.md R6, NKEYS). -/
abbrev Key := Fin 16

/-- `a || b`: the word whose high byte is `hi` and whose low byte is `lo` (00_scope.md R9). -/
def wordOfBytes (hi lo : Byte) : Word := BitVec.ofNat 16 (hi.toNat * 256 + lo.toNat)

end Sys2Proof
end

