-- ==== Sys2Proof/Syntax.lean ====
section
/-! DEFINITION. The instructions: one constructor for each of the 36 rows of spec/opcode_table.json
(30_encoding.md R85), in the table's order. -/

namespace Sys2Proof

/-- An instruction of the opcode map (30_encoding.md R85). `SHR` and `SHL` carry no `y`: the field takes part in neither
decoding nor execution (R87). -/
inductive Instr where
  /-- `0000` HALT (R100) -/
  | halt
  /-- `00E0` CLS (R101) -/
  | cls
  /-- `00EE` RET (R102) -/
  | ret
  /-- `1nnn` JP nnn (R103) -/
  | jp (nnn : Addr)
  /-- `2nnn` CALL nnn (R104) -/
  | call (nnn : Addr)
  /-- `3xkk` SE Vx, kk (R120) -/
  | seImm (x : Reg) (kk : Byte)
  /-- `4xkk` SNE Vx, kk (R121) -/
  | sneImm (x : Reg) (kk : Byte)
  /-- `5xy0` SE Vx, Vy (R122) -/
  | seReg (x y : Reg)
  /-- `6xkk` LD Vx, kk (R130) -/
  | ldImm (x : Reg) (kk : Byte)
  /-- `7xkk` ADD Vx, kk (R131) -/
  | addImm (x : Reg) (kk : Byte)
  /-- `8xy0` LD Vx, Vy (R132) -/
  | ldReg (x y : Reg)
  /-- `8xy1` OR Vx, Vy (R133) -/
  | orReg (x y : Reg)
  /-- `8xy2` AND Vx, Vy (R134) -/
  | andReg (x y : Reg)
  /-- `8xy3` XOR Vx, Vy (R135) -/
  | xorReg (x y : Reg)
  /-- `8xy4` ADD Vx, Vy (R136) -/
  | addReg (x y : Reg)
  /-- `8xy5` SUB Vx, Vy (R137) -/
  | subReg (x y : Reg)
  /-- `8xy6` SHR Vx (R138) -/
  | shr (x : Reg)
  /-- `8xy7` SUBN Vx, Vy (R139) -/
  | subnReg (x y : Reg)
  /-- `8xyE` SHL Vx (R140) -/
  | shl (x : Reg)
  /-- `9xy0` SNE Vx, Vy (R123) -/
  | sneReg (x y : Reg)
  /-- `Annn` LD I, nnn (R150) -/
  | ldI (nnn : Addr)
  /-- `Bnnn` JP V0, nnn (R105) -/
  | jpV0 (nnn : Addr)
  /-- `Cxkk` RND Vx, kk (R173) -/
  | rnd (x : Reg) (kk : Byte)
  /-- `Dxyn` DRW Vx, Vy, n (R174): `n` is a byte count 0 to 15 -/
  | drw (x y : Reg) (n : Fin 16)
  /-- `Ex9E` SKP Vx (R176) -/
  | skp (x : Reg)
  /-- `ExA1` SKNP Vx (R177) -/
  | sknp (x : Reg)
  /-- `Fx07` LD Vx, DT (R170) -/
  | ldVxDT (x : Reg)
  /-- `Fx0A` LD Vx, K (R178) -/
  | ldVxK (x : Reg)
  /-- `Fx15` LD DT, Vx (R171) -/
  | ldDTVx (x : Reg)
  /-- `Fx18` LD ST, Vx (R172) -/
  | ldSTVx (x : Reg)
  /-- `Fx1E` ADD I, Vx (R151) -/
  | addI (x : Reg)
  /-- `Fx29` LD F, Vx (R152) -/
  | ldF (x : Reg)
  /-- `Fx33` LD B, Vx (R153) -/
  | ldB (x : Reg)
  /-- `Fx55` LD [I], Vx (R154) -/
  | storeRegs (x : Reg)
  /-- `Fx65` LD Vx, [I] (R155) -/
  | loadRegs (x : Reg)
  /-- any other word, UNRECOGNIZED (R106): it carries the word, all of whose fields are ignored -/
  | unrecognized (w : Word)
  deriving DecidableEq, Repr

end Sys2Proof
end

