-- ==== Sys2Proof/WellFormed.lean ====
section
/-! DEFINITION. Which terms of `Instr` stand for an instruction: every one but an `unrecognized` whose word is a listed
one. The set of unrecognized words is written from 30_encoding.md R90's enumeration, not from the decoder. -/

namespace Sys2Proof

/-- The words 30_encoding.md R90 enumerates, family by family (high nibble), with its counts in mind: 4093 + 3840 + 1792 +
3840 + 4064 + 3952 = 21581. -/
def isUnrecognizedWord (w : Word) : Bool :=
  let family := w.toNat / 4096
  let low := w.toNat % 16
  let lowByte := w.toNat % 256
  (family == 0x0 && !([0x0000, 0x00E0, 0x00EE].contains w.toNat)) ||
  (family == 0x5 && low != 0) ||
  (family == 0x8 && [0x8, 0x9, 0xA, 0xB, 0xC, 0xD, 0xF].contains low) ||
  (family == 0x9 && low != 0) ||
  (family == 0xE && !([0x9E, 0xA1].contains lowByte)) ||
  (family == 0xF && !([0x07, 0x0A, 0x15, 0x18, 0x1E, 0x29, 0x33, 0x55, 0x65].contains lowByte))

/-- An instruction is well formed when its operands are ones an instruction word can carry. Register numbers, bytes,
addresses and counts are so by their types (30_encoding.md R83); `unrecognized` must carry a word of R90's set. -/
def Instr.wf : Instr → Bool
  | .unrecognized w => isUnrecognizedWord w
  | .halt | .cls | .ret | .jp _ | .call _ | .seImm _ _ | .sneImm _ _ | .seReg _ _ | .ldImm _ _ | .addImm _ _
  | .ldReg _ _ | .orReg _ _ | .andReg _ _ | .xorReg _ _ | .addReg _ _ | .subReg _ _ | .shr _ | .subnReg _ _ | .shl _
  | .sneReg _ _ | .ldI _ | .jpV0 _ | .rnd _ _ | .drw _ _ _ | .skp _ | .sknp _ | .ldVxDT _ | .ldVxK _ | .ldDTVx _
  | .ldSTVx _ | .addI _ | .ldF _ | .ldB _ | .storeRegs _ | .loadRegs _ => true

end Sys2Proof
end

