-- ==== Sys2Proof/Decode.lean ====
section
/-! DEFINITION. From words to instructions and back: the decode procedure of 30_encoding.md R84 (high nibble first, then a
second level), the opcode map of R85 as masks and matches, the encoder, and the byte layout of R80. -/

namespace Sys2Proof

/-- `v[lo + len - 1 : lo]`: a bit slice as an unsigned number (00_scope.md R9). -/
def bits (w : Word) (lo len : Nat) : Nat := w.toNat / 2 ^ lo % 2 ^ len

/-- `x = instr[11:8]` (00_scope.md R12). -/
def fieldX (w : Word) : Reg := ⟨bits w 8 4, Nat.mod_lt _ (by decide)⟩

/-- `y = instr[7:4]` (00_scope.md R12). -/
def fieldY (w : Word) : Reg := ⟨bits w 4 4, Nat.mod_lt _ (by decide)⟩

/-- `n = instr[3:0]` (00_scope.md R12). -/
def fieldN (w : Word) : Fin 16 := ⟨bits w 0 4, Nat.mod_lt _ (by decide)⟩

/-- `kk = instr[7:0]` (00_scope.md R12). -/
def fieldKK (w : Word) : Byte := BitVec.ofNat 8 (bits w 0 8)

/-- `nnn = instr[11:0]` (00_scope.md R12). -/
def fieldNNN (w : Word) : Addr := BitVec.ofNat 12 (bits w 0 12)

/-- Family 0: the whole word must match (30_encoding.md R84, R89). -/
def decodeFamily0 (w : Word) : Instr :=
  if w.toNat = 0x0000 then .halt
  else if w.toNat = 0x00E0 then .cls
  else if w.toNat = 0x00EE then .ret
  else .unrecognized w

/-- Family 8: the low nibble selects (30_encoding.md R84); SHR and SHL ignore `y` (R87). -/
def decodeFamily8 (w : Word) : Instr :=
  match bits w 0 4 with
  | 0x0 => .ldReg (fieldX w) (fieldY w)
  | 0x1 => .orReg (fieldX w) (fieldY w)
  | 0x2 => .andReg (fieldX w) (fieldY w)
  | 0x3 => .xorReg (fieldX w) (fieldY w)
  | 0x4 => .addReg (fieldX w) (fieldY w)
  | 0x5 => .subReg (fieldX w) (fieldY w)
  | 0x6 => .shr (fieldX w)
  | 0x7 => .subnReg (fieldX w) (fieldY w)
  | 0xE => .shl (fieldX w)
  | _ => .unrecognized w

/-- Family E: the low byte selects (30_encoding.md R84). -/
def decodeFamilyE (w : Word) : Instr :=
  if bits w 0 8 = 0x9E then .skp (fieldX w)
  else if bits w 0 8 = 0xA1 then .sknp (fieldX w)
  else .unrecognized w

/-- Family F: the low byte selects (30_encoding.md R84). -/
def decodeFamilyF (w : Word) : Instr :=
  if bits w 0 8 = 0x07 then .ldVxDT (fieldX w)
  else if bits w 0 8 = 0x0A then .ldVxK (fieldX w)
  else if bits w 0 8 = 0x15 then .ldDTVx (fieldX w)
  else if bits w 0 8 = 0x18 then .ldSTVx (fieldX w)
  else if bits w 0 8 = 0x1E then .addI (fieldX w)
  else if bits w 0 8 = 0x29 then .ldF (fieldX w)
  else if bits w 0 8 = 0x33 then .ldB (fieldX w)
  else if bits w 0 8 = 0x55 then .storeRegs (fieldX w)
  else if bits w 0 8 = 0x65 then .loadRegs (fieldX w)
  else .unrecognized w

/-- The decode procedure of 30_encoding.md R84, total on the 65536 words: "classify the instruction by its high nibble
(bits 15–12), then where ambiguous, by a secondary mask". A word that passes neither level is unrecognized (R90). -/
def decode (w : Word) : Instr :=
  match bits w 12 4 with
  | 0x0 => decodeFamily0 w
  | 0x1 => .jp (fieldNNN w)
  | 0x2 => .call (fieldNNN w)
  | 0x3 => .seImm (fieldX w) (fieldKK w)
  | 0x4 => .sneImm (fieldX w) (fieldKK w)
  | 0x5 => if bits w 0 4 = 0 then .seReg (fieldX w) (fieldY w) else .unrecognized w
  | 0x6 => .ldImm (fieldX w) (fieldKK w)
  | 0x7 => .addImm (fieldX w) (fieldKK w)
  | 0x8 => decodeFamily8 w
  | 0x9 => if bits w 0 4 = 0 then .sneReg (fieldX w) (fieldY w) else .unrecognized w
  | 0xA => .ldI (fieldNNN w)
  | 0xB => .jpV0 (fieldNNN w)
  | 0xC => .rnd (fieldX w) (fieldKK w)
  | 0xD => .drw (fieldX w) (fieldY w) (fieldN w)
  | 0xE => decodeFamilyE w
  | _ => decodeFamilyF w

/-- Why bytes are no instruction. -/
inductive DecodeReject where
  /-- fewer than two bytes: an instruction is two bytes long (30_encoding.md R80) -/
  | truncated
  deriving DecidableEq, Repr

/-- The instruction at the head of a byte sequence, with the bytes after it: two bytes, the first the high byte
(30_encoding.md R80, 20_memory.md R52). -/
def decodeBytes : List Byte → Except DecodeReject (Instr × List Byte)
  | hi :: lo :: rest => .ok (decode (wordOfBytes hi lo), rest)
  | _ => .error .truncated

/-- Format A: `oooo nnnn nnnn nnnn` (30_encoding.md R82). -/
def encodeA (op : Nat) (nnn : Addr) : Word := BitVec.ofNat 16 (op * 4096 + nnn.toNat)

/-- Format RI: `oooo xxxx kkkk kkkk` (30_encoding.md R82). -/
def encodeRI (op : Nat) (x : Reg) (kk : Byte) : Word := BitVec.ofNat 16 (op * 4096 + x.val * 256 + kk.toNat)

/-- Formats RR and RRN: `oooo xxxx yyyy ffff` and `1101 xxxx yyyy nnnn` (30_encoding.md R82). -/
def encodeRR (op : Nat) (x y : Reg) (f : Nat) : Word := BitVec.ofNat 16 (op * 4096 + x.val * 256 + y.val * 16 + f)

/-- Format R: `oooo xxxx ssss ssss` (30_encoding.md R82). -/
def encodeR (op : Nat) (x : Reg) (s : Nat) : Word := BitVec.ofNat 16 (op * 4096 + x.val * 256 + s)

/-- The word of an instruction, from the patterns of 30_encoding.md R85. The ignored `y` of SHR and SHL is written 0 (log
entry 17). -/
def encode : Instr → Word
  | .halt => 0x0000
  | .cls => 0x00E0
  | .ret => 0x00EE
  | .jp nnn => encodeA 0x1 nnn
  | .call nnn => encodeA 0x2 nnn
  | .seImm x kk => encodeRI 0x3 x kk
  | .sneImm x kk => encodeRI 0x4 x kk
  | .seReg x y => encodeRR 0x5 x y 0x0
  | .ldImm x kk => encodeRI 0x6 x kk
  | .addImm x kk => encodeRI 0x7 x kk
  | .ldReg x y => encodeRR 0x8 x y 0x0
  | .orReg x y => encodeRR 0x8 x y 0x1
  | .andReg x y => encodeRR 0x8 x y 0x2
  | .xorReg x y => encodeRR 0x8 x y 0x3
  | .addReg x y => encodeRR 0x8 x y 0x4
  | .subReg x y => encodeRR 0x8 x y 0x5
  | .shr x => encodeRR 0x8 x 0 0x6
  | .subnReg x y => encodeRR 0x8 x y 0x7
  | .shl x => encodeRR 0x8 x 0 0xE
  | .sneReg x y => encodeRR 0x9 x y 0x0
  | .ldI nnn => encodeA 0xA nnn
  | .jpV0 nnn => encodeA 0xB nnn
  | .rnd x kk => encodeRI 0xC x kk
  | .drw x y n => encodeRR 0xD x y n.val
  | .skp x => encodeR 0xE x 0x9E
  | .sknp x => encodeR 0xE x 0xA1
  | .ldVxDT x => encodeR 0xF x 0x07
  | .ldVxK x => encodeR 0xF x 0x0A
  | .ldDTVx x => encodeR 0xF x 0x15
  | .ldSTVx x => encodeR 0xF x 0x18
  | .addI x => encodeR 0xF x 0x1E
  | .ldF x => encodeR 0xF x 0x29
  | .ldB x => encodeR 0xF x 0x33
  | .storeRegs x => encodeR 0xF x 0x55
  | .loadRegs x => encodeR 0xF x 0x65
  | .unrecognized w => w

/-- The high byte of a word, the one at the lower address (30_encoding.md R80). -/
def highByte (w : Word) : Byte := BitVec.ofNat 8 (bits w 8 8)

/-- The low byte of a word. -/
def lowByte (w : Word) : Byte := BitVec.ofNat 8 (bits w 0 8)

/-- The two bytes of an instruction as memory holds them (30_encoding.md R80). -/
def encodeBytes (i : Instr) : List Byte := [highByte (encode i), lowByte (encode i)]

/-- One row of the opcode map: a word `w` selects it when `w & mask == match` (30_encoding.md R85). -/
structure OpRow where
  mask : Word
  pattern : Word
  mnemonic : String
  deriving DecidableEq, Repr

/-- The first rows of 30_encoding.md R85's table, with spec/opcode_table.json's mnemonics: families 0 to 7. -/
def opcodeMapLow : List OpRow :=
  [⟨0xFFFF, 0x0000, "HALT"⟩, ⟨0xFFFF, 0x00E0, "CLS"⟩, ⟨0xFFFF, 0x00EE, "RET"⟩,
   ⟨0xF000, 0x1000, "JP_nnn"⟩, ⟨0xF000, 0x2000, "CALL_nnn"⟩,
   ⟨0xF000, 0x3000, "SE_Vx__kk"⟩, ⟨0xF000, 0x4000, "SNE_Vx__kk"⟩, ⟨0xF00F, 0x5000, "SE_Vx__Vy"⟩,
   ⟨0xF000, 0x6000, "LD_Vx__kk"⟩, ⟨0xF000, 0x7000, "ADD_Vx__kk"⟩]

/-- The rows of family 8. -/
def opcodeMapAlu : List OpRow :=
  [⟨0xF00F, 0x8000, "LD_Vx__Vy"⟩, ⟨0xF00F, 0x8001, "OR_Vx__Vy"⟩, ⟨0xF00F, 0x8002, "AND_Vx__Vy"⟩,
   ⟨0xF00F, 0x8003, "XOR_Vx__Vy"⟩, ⟨0xF00F, 0x8004, "ADD_Vx__Vy"⟩, ⟨0xF00F, 0x8005, "SUB_Vx__Vy"⟩,
   ⟨0xF00F, 0x8006, "SHR_Vx"⟩, ⟨0xF00F, 0x8007, "SUBN_Vx__Vy"⟩, ⟨0xF00F, 0x800E, "SHL_Vx"⟩]

/-- The rows of families 9 to F. -/
def opcodeMapHigh : List OpRow :=
  [⟨0xF00F, 0x9000, "SNE_Vx__Vy"⟩, ⟨0xF000, 0xA000, "LD_I__nnn"⟩, ⟨0xF000, 0xB000, "JP_V0__nnn"⟩,
   ⟨0xF000, 0xC000, "RND_Vx__kk"⟩, ⟨0xF000, 0xD000, "DRW_Vx__Vy__n"⟩,
   ⟨0xF0FF, 0xE09E, "SKP_Vx"⟩, ⟨0xF0FF, 0xE0A1, "SKNP_Vx"⟩,
   ⟨0xF0FF, 0xF007, "LD_Vx__DT"⟩, ⟨0xF0FF, 0xF00A, "LD_Vx__K"⟩, ⟨0xF0FF, 0xF015, "LD_DT__Vx"⟩,
   ⟨0xF0FF, 0xF018, "LD_ST__Vx"⟩, ⟨0xF0FF, 0xF01E, "ADD_I__Vx"⟩, ⟨0xF0FF, 0xF029, "LD_F__Vx"⟩,
   ⟨0xF0FF, 0xF033, "LD_B__Vx"⟩, ⟨0xF0FF, 0xF055, "LD__I___Vx"⟩, ⟨0xF0FF, 0xF065, "LD_Vx___I"⟩]

/-- The 35 rows of 30_encoding.md R85 that a mask and a match select, in the table's order. -/
def opcodeMap : List OpRow := opcodeMapLow ++ opcodeMapAlu ++ opcodeMapHigh

/-- `w & mask == match` (30_encoding.md R85). -/
def OpRow.selects (r : OpRow) (w : Word) : Bool := w &&& r.mask == r.pattern

/-- The mnemonic spec/opcode_table.json gives each instruction's row. -/
def Instr.mnemonic : Instr → String
  | .halt => "HALT"
  | .cls => "CLS"
  | .ret => "RET"
  | .jp _ => "JP_nnn"
  | .call _ => "CALL_nnn"
  | .seImm _ _ => "SE_Vx__kk"
  | .sneImm _ _ => "SNE_Vx__kk"
  | .seReg _ _ => "SE_Vx__Vy"
  | .ldImm _ _ => "LD_Vx__kk"
  | .addImm _ _ => "ADD_Vx__kk"
  | .ldReg _ _ => "LD_Vx__Vy"
  | .orReg _ _ => "OR_Vx__Vy"
  | .andReg _ _ => "AND_Vx__Vy"
  | .xorReg _ _ => "XOR_Vx__Vy"
  | .addReg _ _ => "ADD_Vx__Vy"
  | .subReg _ _ => "SUB_Vx__Vy"
  | .shr _ => "SHR_Vx"
  | .subnReg _ _ => "SUBN_Vx__Vy"
  | .shl _ => "SHL_Vx"
  | .sneReg _ _ => "SNE_Vx__Vy"
  | .ldI _ => "LD_I__nnn"
  | .jpV0 _ => "JP_V0__nnn"
  | .rnd _ _ => "RND_Vx__kk"
  | .drw _ _ _ => "DRW_Vx__Vy__n"
  | .skp _ => "SKP_Vx"
  | .sknp _ => "SKNP_Vx"
  | .ldVxDT _ => "LD_Vx__DT"
  | .ldVxK _ => "LD_Vx__K"
  | .ldDTVx _ => "LD_DT__Vx"
  | .ldSTVx _ => "LD_ST__Vx"
  | .addI _ => "ADD_I__Vx"
  | .ldF _ => "LD_F__Vx"
  | .ldB _ => "LD_B__Vx"
  | .storeRegs _ => "LD__I___Vx"
  | .loadRegs _ => "LD_Vx___I"
  | .unrecognized _ => "UNRECOGNIZED"

/-- The row of the opcode map an instruction stands for; none for the catch-all. -/
def Instr.row? (i : Instr) : Option OpRow := opcodeMap.find? (fun r => r.mnemonic == i.mnemonic)

/-- Whether an instruction is the catch-all (40_system_control.md R106). -/
def Instr.isUnrecognized (i : Instr) : Bool :=
  match i with
  | .unrecognized _ => true
  | _ => false

/-- The word an instruction of `nbits` bits with value `w` has, bits above `nbits` zero. -/
def tableWord (nbits w : Nat) : Word := BitVec.ofNat 16 (w % 2 ^ nbits)

/-- What the decoder reads from a word of spec/opcode_table.json: its two bytes laid out high byte first (30_encoding.md
R80), then decoded. -/
def decodeTableWord (nbits w : Nat) : Option Instr :=
  match decodeBytes [highByte (tableWord nbits w), lowByte (tableWord nbits w)] with
  | .ok (i, _) => some i
  | .error _ => none

end Sys2Proof
end

