-- ==== Sys2Proof/Config.lean ====
section
/-! DEFINITION. The fixed parameters of the hardware (00_scope.md R6), the range of the open parameter FONT_BASE
(R7), and the environment's free answers (R15): constants with no body, so nothing can be proved of their values. -/

namespace Sys2Proof.Config

/-- `MEM_SIZE`: bytes of memory (00_scope.md R6). -/
abbrev memSize : Nat := 4096

/-- `PROG_BASE`: first program byte, and entry point (00_scope.md R6). -/
abbrev progBase : Nat := 0x200

/-- `ROM_MAX`: most ROM bytes kept by a load, 4096 - 512 (00_scope.md R6). -/
abbrev romMax : Nat := 3584

/-- `STACK_DEPTH`: entries of the call stack (00_scope.md R6). -/
abbrev stackDepth : Nat := 16

/-- `FONT_STRIDE`: bytes per font sprite (00_scope.md R6, which takes it from general knowledge, G1). -/
abbrev fontStride : Nat := 5

/-- The values FONT_BASE may take: `FONT_BASE + 16 * FONT_STRIDE <= PROG_BASE`, that is 0 to 432 (00_scope.md R7).
Log entry 7. -/
abbrev FontBase := Fin 433

/-- The random source's answer to a request no byte is lined up for (44_timers_random_io.md R173, U11). Free value: log
entry 8. -/
opaque freeRandom : Nat → Byte

/-- The display's collision answer where none is lined up (44_timers_random_io.md R174, R175, U12). Free value: log
entry 9. -/
opaque freeCollision : Nat → Bool

/-- The input collaborator's answer to a key query where none is lined up (44_timers_random_io.md R176, U13). Free
value: log entry 10. -/
opaque freePressed : Nat → Bool

/-- The input collaborator's answer to a key wait where none is lined up: `none` or a key
(44_timers_random_io.md R178, U14). Free value: log entry 11. -/
opaque freeKeyWait : Nat → Option Key

end Sys2Proof.Config
end

