-- ==== Sys2Proof/Machine/State.lean ====
section
/-! DEFINITION. The state of CORE (10_state.md section 1) as plain data, the environment's side of a step (10_state.md
R35: parameters, oracles and outputs), the reasons a step can stop, and the state after Reset (10_state.md R37). -/

namespace Sys2Proof.Machine

/-- `RUN` (10_state.md R33). -/
inductive RunState where
  /-- reset done, not started; LoadRom allowed -/
  | idle
  /-- the core takes instruction cycles -/
  | running
  /-- the halt sentinel was fetched -/
  | halted
  /-- the stop signal was seen between two cycles -/
  | stopped
  /-- a fatal condition was raised; `FAULT` says which -/
  | fatal
  deriving DecidableEq, Repr

/-- `FAULT`, the record of the fatal condition (10_state.md R34, 60_exceptions.md R206). -/
structure FaultRecord where
  code : BitVec 3
  info : Word
  deriving DecidableEq, Repr

/-- The fatal conditions CORE can raise (60_exceptions.md R201 to R205). -/
inductive Condition where
  | stackOverflow
  | stackUnderflow
  | addressOutOfBounds
  | misalignedFetch
  | reservedFetch
  deriving DecidableEq, Repr

/-- Memory as the cells that hold something else than the reset value 0x00, by rising address (log entry 1). -/
abbrev Memory := List Host.Cell

/-- A question or order CORE sends on a port (00_scope.md R15; 60_exceptions.md R220, R222 to R224). -/
inductive Request where
  | displayClear
  | displayDraw (xpos ypos : Byte) (sprite : List Byte)
  | keyPressed (k : Byte)
  | keyWait
  | random
  deriving DecidableEq, Repr

/-- One entry of the trace output: `IP` before the instruction, the word fetched (60_exceptions.md R227), and the
`unrecognized` pulse of that cycle (R207). -/
structure TraceEntry where
  ip : Word
  instr : Word
  unrecognized : Bool
  deriving DecidableEq, Repr

/-- A move of one of the agents of 00_scope.md R8 (log entry 5). -/
inductive Move where
  /-- the core: one instruction cycle that samples this level of the stop input (70_reset_and_hazards.md R247, R249) -/
  | cycle (stop : Bool)
  /-- the timer: one tick event (60_exceptions.md R216) -/
  | tick
  /-- the host: `Reset` (70_reset_and_hazards.md R240) -/
  | reset
  /-- the host: `LoadRom(bytes)` (70_reset_and_hazards.md R245) -/
  | loadRom (bytes : List Byte)
  /-- the host: `Start` (70_reset_and_hazards.md R246) -/
  | start
  deriving DecidableEq, Repr

/-- What is not state of CORE but a parameter or an oracle of its step (10_state.md R35), and CORE's outputs. -/
structure Env where
  /-- `FONT_BASE` (00_scope.md R7). No step writes it. Log entry 7. -/
  fontBase : Config.FontBase
  /-- the moves still to come, the next one first; none: the core's next cycle with stop low. Log entry 5. -/
  moves : List Move
  /-- answers lined up on the random port (60_exceptions.md R224). Log entry 8. -/
  randoms : List Byte
  /-- collision answers lined up on the display port (60_exceptions.md R222). Log entry 9. -/
  collisions : List Bool
  /-- key-query answers lined up on the input port (60_exceptions.md R223). Log entry 10. -/
  presses : List Bool
  /-- key-wait answers lined up on the input port (60_exceptions.md R223). Log entry 11. -/
  keyWaits : List (Option Key)
  /-- how many answers were given: where the free answers of Config are taken. Log entry 12. -/
  draws : Nat
  /-- requests sent so far, oldest first (44_timers_random_io.md R175). Log entry 13. -/
  requests : List Request
  /-- the trace output so far, oldest first (60_exceptions.md R227). Log entry 13. -/
  trace : List TraceEntry
  deriving DecidableEq, Repr

/-- The state: 10_state.md section 1's table field by field, and `env`, the model's own. -/
structure State where
  /-- `V[0]`..`V[15]` (R20) -/
  v : Vector Byte 16
  /-- `CF` (R22) -/
  cf : Byte
  /-- `I` (R24) -/
  idx : Word
  /-- `IP` (R25) -/
  ip : Word
  /-- `SP` (R27) -/
  sp : Byte
  /-- `STACK[0]`..`STACK[15]` (R28) -/
  stack : Vector Word 16
  /-- `DT` (R30) -/
  dt : Byte
  /-- `ST` (R31) -/
  st : Byte
  /-- `MEM[0]`..`MEM[4095]` (R32) -/
  mem : Memory
  /-- `RUN` (R33) -/
  run : RunState
  /-- `FAULT` (R34) -/
  fault : FaultRecord
  /-- the environment's side of the step (R35): the model's own -/
  env : Env
  deriving DecidableEq, Repr

/-- Why the model stops without a next state. The machine's own fatal conditions are no such stop: they are next states
with `RUN = FATAL` (60_exceptions.md R211). -/
inductive Fault where
  /-- Raised by CALL and RET in a state whose `SP` is above 16, where the stack slot they would use does not exist. Safe:
  10_state.md R27 says no rule ever writes such an SP, and no run reaches one. Log entry 2. -/
  | stackPointerIllegal
  deriving DecidableEq, Repr

/-- What the model refuses. -/
inductive Refusal where
  /-- An instruction without a meaning, refused in its arm of exec. Safe: nothing is claimed of it. No arm is. -/
  | notModelled (mnemonic : String)
  /-- Raised by a host LoadRom or Start outside IDLE, which 70_reset_and_hazards.md R244 gives no step and
  93_implementation_defined.md U21 refuses. Safe: nothing is claimed of it. Log entry 4. -/
  | hostMoveNotAllowed
  deriving DecidableEq, Repr

/-- What a step, an instruction or a move answers. -/
abbrev Result := Host.Outcome State Fault Refusal

/-- The environment's side at reset: the spec's default FONT_BASE, nothing lined up, nothing sent (log entries 7, 12). -/
def Env.reset : Env where
  fontBase := 0
  moves := []
  randoms := []
  collisions := []
  presses := []
  keyWaits := []
  draws := 0
  requests := []
  trace := []

/-- The state after Reset (10_state.md R37, 70_reset_and_hazards.md R240). -/
def State.reset : State where
  v := Vector.replicate 16 0x00
  cf := 0x00
  idx := 0x0000
  ip := 0x0000
  sp := 0x00
  stack := Vector.replicate 16 0x0000
  dt := 0x00
  st := 0x00
  mem := []
  run := .idle
  fault := ⟨0, 0x0000⟩
  env := Env.reset

end Sys2Proof.Machine
end

