-- ==== Sys2Proof/Machine/Ops.lean ====
section
/-! DEFINITION. The named operations over registers, the instruction pointer, the stack and memory; raising a fatal condition
(60_exceptions.md R211), the one exception entry of this machine, which has no return (R213); and the instruction
fetch (20_memory.md R57). -/

namespace Sys2Proof.Machine

/-! ## Registers -/

/-- `V[x]` (10_state.md R20). -/
def State.readV (s : State) (x : Reg) : Byte := s.v[x.val]

/-- `V[x] <- b`; `CF` is another cell (10_state.md R22). -/
def State.setV (x : Reg) (b : Byte) (s : State) : State := { s with v := s.v.set x.val b x.isLt }

/-- `V[0]`, ..., `V[x]` (43_index_memory.md R154). -/
def State.readVBlock (s : State) (x : Reg) : List Byte := s.v.toList.take (x.val + 1)

/-- `V[j] <- bs[j]` for every `j` below the length of `bs` (43_index_memory.md R155). -/
def State.setVBlock (bs : List Byte) (s : State) : State :=
  { s with v := Vector.ofFn fun j => (bs[j.val]?).getD (s.readV j) }

/-- `CF <- b` (10_state.md R23). -/
def State.setCF (b : Byte) (s : State) : State := { s with cf := b }

/-- `I <- a` (10_state.md R24). -/
def State.setI (a : Word) (s : State) : State := { s with idx := a }

/-- `DT <- b` (10_state.md R30). -/
def State.setDT (b : Byte) (s : State) : State := { s with dt := b }

/-- `ST <- b` (10_state.md R31). -/
def State.setST (b : Byte) (s : State) : State := { s with st := b }

/-! ## The instruction pointer -/

/-- `IP <- target`, a control transfer (00_scope.md R11). -/
def State.jump (target : Word) (s : State) : State := { s with ip := target }

/-- "Advance": `IP <- IP + 2` (00_scope.md R16). -/
def State.advance (s : State) : State := { s with ip := s.ip + 2 }

/-- "Skip" if the condition holds, `IP <- IP + 4`, else advance (00_scope.md R16, 41_skips.md R124). -/
def State.skipIf (c : Bool) (s : State) : State := { s with ip := if c then s.ip + 4 else s.ip + 2 }

/-! ## Fatal conditions -/

/-- The code of a fatal condition (60_exceptions.md R206). -/
def Condition.code : Condition → BitVec 3
  | .stackOverflow => 1
  | .stackUnderflow => 2
  | .addressOutOfBounds => 3
  | .misalignedFetch => 4
  | .reservedFetch => 5

/-- `raise <Condition>(info)`: RUN and FAULT are written and nothing else is (60_exceptions.md R211, 00_scope.md R14).
Given the state before the instruction, so that none of its writes is committed. -/
def raise (c : Condition) (info : Word) (s : State) : State :=
  { s with run := .fatal, fault := ⟨c.code, info⟩ }

/-! ## The stack -/

/-- `STACK[k]` (10_state.md R28). -/
def State.readSlot (s : State) (k : Fin 16) : Word := s.stack[k.val]

/-- `STACK[SP] <- a; SP <- SP + 1` (10_state.md R28). None where `STACK[SP]` does not exist. -/
def State.push (a : Word) (s : State) : Option State :=
  if h : s.sp.toNat < 16 then
    some { s with stack := s.stack.set s.sp.toNat a h, sp := s.sp + 1 }
  else none

/-- `SP <- SP - 1`, with the entry `STACK[SP - 1]`; the slot keeps its content (10_state.md R28). None where that slot
does not exist. -/
def State.pop (s : State) : Option (Word × State) :=
  if h : 1 ≤ s.sp.toNat ∧ s.sp.toNat ≤ 16 then
    some (s.stack[s.sp.toNat - 1]'(by omega), { s with sp := s.sp - 1 })
  else none

/-! ## Memory -/

/-- What a cell nothing has written holds: the reset value (10_state.md R32, R37). -/
def Memory.unlisted : Byte := 0x00

/-- The byte at an address. -/
def Memory.read (m : Memory) (a : Nat) : Byte :=
  match m with
  | [] => Memory.unlisted
  | (k, c) :: rest => if a = k then c else Memory.read rest a

/-- The memory with one byte stored. It keeps the canonical form: a cell given the value of an unlisted one is dropped. -/
def Memory.write (m : Memory) (a : Nat) (b : Byte) : Memory :=
  match m with
  | [] => if b = Memory.unlisted then [] else [(a, b)]
  | (k, c) :: rest =>
    if a < k then (if b = Memory.unlisted then (k, c) :: rest else (a, b) :: (k, c) :: rest)
    else if a = k then (if b = Memory.unlisted then rest else (a, b) :: rest)
    else (k, c) :: Memory.write rest a b

/-- The canonical form above an address: keys rise from `lo`, are addresses (20_memory.md R50), and no cell holds the
value of an unlisted one. -/
def Memory.wfFrom (lo : Nat) (m : Memory) : Bool :=
  match m with
  | [] => true
  | (k, c) :: rest => decide (lo ≤ k) && decide (k < Config.memSize) && c != Memory.unlisted && Memory.wfFrom (k + 1) rest

/-- The canonical form of memory (log entry 1). -/
def Memory.wf (m : Memory) : Bool := Memory.wfFrom 0 m

/-- The bytes at `a`, `a + 1`, ..., `a + n - 1` (20_memory.md R55). -/
def Memory.readList (m : Memory) (a : Nat) : Nat → List Byte
  | 0 => []
  | n + 1 => m.read a :: Memory.readList m (a + 1) n

/-- `MEM[a + j] <- bs[j]` for every `j` (20_memory.md R56). -/
def Memory.writeList (m : Memory) (a : Nat) : List Byte → Memory
  | [] => m
  | b :: bs => Memory.writeList (m.write a b) (a + 1) bs

/-- `MEM[a]`. -/
def State.readByte (s : State) (a : Nat) : Byte := s.mem.read a

/-- The decoder's bound: every byte of the access has an address at most 4095 (20_memory.md R55, R56). -/
def inBounds (addr n : Nat) : Bool := decide (addr + n ≤ Config.memSize)

/-- `MemRead(addr, n)` (20_memory.md R55): none where it raises AddressOutOfBounds. -/
def State.memRead (addr n : Nat) (s : State) : Option (List Byte) :=
  if inBounds addr n then some (s.mem.readList addr n) else none

/-- `MemWrite(addr, n, v)` with `v` the `n` bytes given (20_memory.md R56): none where it raises AddressOutOfBounds; then no
byte is written. -/
def State.memWrite (addr : Nat) (bytes : List Byte) (s : State) : Option State :=
  if inBounds addr bytes.length then some { s with mem := s.mem.writeList addr bytes } else none

/-! ## Fetch -/

/-- The fetch checks of 20_memory.md R57, in its order. -/
def fetchCheck (ip : Word) : Option Condition :=
  if 0x0FFE < ip.toNat then some .addressOutOfBounds
  else if ip.toNat < 0x0200 then some .reservedFetch
  else if ip.toNat % 2 = 1 then some .misalignedFetch
  else none

/-- `instr <- MEM[IP] || MEM[IP + 1]` (20_memory.md R52, R57). -/
def State.fetchWord (s : State) : Word := wordOfBytes (s.readByte s.ip.toNat) (s.readByte (s.ip.toNat + 1))

end Sys2Proof.Machine
end

