-- ==== Sys2Proof/Machine/Flags.lean ====
section
/-! DEFINITION. Every flag computation: what CF receives (42_alu.md R142, 10_state.md R23). Each value is 0x00 or 0x01. -/

namespace Sys2Proof.Machine

/-- A flag value as the 8-bit cell holds it: 0x01 or 0x00 (10_state.md R23). -/
def flagByte (b : Bool) : Byte := if b then 0x01 else 0x00

/-- `add_with_carry`: 1 if NO overflow, `a + b <= 255` (42_alu.md R136, R142). -/
def addFlag (a b : Byte) : Byte := flagByte (decide (a.toNat + b.toNat ≤ 255))

/-- `sub_with_borrow` on a cell holding `a` with operand `b`: 1 if a borrow occurs, `b > a` (42_alu.md R137, R139, R142). -/
def borrowFlag (a b : Byte) : Byte := flagByte (decide (b.toNat > a.toNat))

/-- The bit a right shift by 1 shifts out: `a & 1` (42_alu.md R138). -/
def shrFlag (a : Byte) : Byte := a &&& 1

/-- The bit a left shift by 1 shifts out: `(a >> 7) & 1` (42_alu.md R140). -/
def shlFlag (a : Byte) : Byte := a >>> 7 &&& 1

/-- The collision bit as CF holds it (44_timers_random_io.md R174). -/
def collisionFlag (c : Bool) : Byte := flagByte c

end Sys2Proof.Machine
end

