-- ==== Sys2Proof/Machine/Operands.lean ====
section
/-! DEFINITION. Operand forms and data results: the cell operations of 42_alu.md R141 and R143, widening, effective
addresses (43_index_memory.md R156), decimal digits (R153) and the font address (R152). -/

namespace Sys2Proof.Machine

/-- `add(v)`: `(a + b) mod 256` (42_alu.md R131, R141). -/
def cellAdd (a b : Byte) : Byte := a + b

/-- `subtract(other)`: `(a - b) mod 256` (42_alu.md R141, R143). -/
def cellSub (a b : Byte) : Byte := a - b

/-- `value >> 1`, logical (42_alu.md R138, R141). -/
def cellShr (a : Byte) : Byte := a >>> 1

/-- `(value << 1) mod 256` (42_alu.md R140, R141). -/
def cellShl (a : Byte) : Byte := a <<< 1

/-- `zext_16(nnn)` (30_encoding.md R83). -/
def addrWord (nnn : Addr) : Word := nnn.setWidth 16

/-- `zext_16(b)`. -/
def byteWord (b : Byte) : Word := b.setWidth 16

/-- `zext_8(k)` of a key value (44_timers_random_io.md R178). -/
def keyByte (k : Key) : Byte := BitVec.ofNat 8 k.val

/-- `FONT_BASE + 5 * (V[x] & 0x0F)` (43_index_memory.md R152). -/
def fontAddress (base : Config.FontBase) (b : Byte) : Word :=
  BitVec.ofNat 16 (base.val + Config.fontStride * (b &&& 0x0F).toNat)

/-- The three decimal digits of a byte, hundreds first (43_index_memory.md R153). -/
def bcdDigits (b : Byte) : List Byte :=
  [BitVec.ofNat 8 (b.toNat / 100), BitVec.ofNat 8 (b.toNat / 10 % 10), BitVec.ofNat 8 (b.toNat % 10)]

/-- The natural number a data access starts at: byte `j` of the instruction is at `I + j`, with no wrap-around
(43_index_memory.md R156). -/
def State.dataAddress (s : State) : Nat := s.idx.toNat

/-- The sprite bytes of `Dxyn`: `MemRead(I, n)` if `n > 0`, else none read (44_timers_random_io.md R174). None where the read
raises. -/
def State.readSprite (n : Fin 16) (s : State) : Option (List Byte) :=
  if n.val = 0 then some [] else s.memRead s.dataAddress n.val

end Sys2Proof.Machine
end

