-- ==== Sys2Proof/Machine/Alu.lean ====
section
/-! DEFINITION. Register load and arithmetic-logic instructions (42_alu.md). All reads see the state before the
instruction, so with `x = y` both operands are the old `V[x]`. -/

namespace Sys2Proof.Machine

/-- The shape of the unflagged ones: `V[x] <- r`, advance. -/
def State.writeResult (x : Reg) (r : Byte) (s : State) : State := (s.setV x r).advance

/-- The shape of the flagged ones: `V[x] <- r`, `CF <- f`, advance. With `x = 0xF` the result goes to `V[15]` and the flag to
`CF` (10_state.md R22). -/
def State.writeResultFlag (x : Reg) (r f : Byte) (s : State) : State := ((s.setV x r).setCF f).advance

/-- LD Vx, kk (R130). -/
def execLdImm (x : Reg) (kk : Byte) (s : State) : Result := .next (s.writeResult x kk)

/-- ADD Vx, kk (R131): silent wraparound, no flag. -/
def execAddImm (x : Reg) (kk : Byte) (s : State) : Result := .next (s.writeResult x (cellAdd (s.readV x) kk))

/-- LD Vx, Vy (R132). -/
def execLdReg (x y : Reg) (s : State) : Result := .next (s.writeResult x (s.readV y))

/-- OR Vx, Vy (R133): CF unchanged. -/
def execOrReg (x y : Reg) (s : State) : Result := .next (s.writeResult x (s.readV x ||| s.readV y))

/-- AND Vx, Vy (R134): CF unchanged. -/
def execAndReg (x y : Reg) (s : State) : Result := .next (s.writeResult x (s.readV x &&& s.readV y))

/-- XOR Vx, Vy (R135): CF unchanged. -/
def execXorReg (x y : Reg) (s : State) : Result := .next (s.writeResult x (s.readV x ^^^ s.readV y))

/-- ADD Vx, Vy (R136): CF is 1 when NO overflow occurs (90_conflicts.md C1). -/
def execAddReg (x y : Reg) (s : State) : Result :=
  .next (s.writeResultFlag x (cellAdd (s.readV x) (s.readV y)) (addFlag (s.readV x) (s.readV y)))

/-- SUB Vx, Vy (R137): CF is 1 when a borrow occurs. -/
def execSubReg (x y : Reg) (s : State) : Result :=
  .next (s.writeResultFlag x (cellSub (s.readV x) (s.readV y)) (borrowFlag (s.readV x) (s.readV y)))

/-- SHR Vx (R138): `V[x]` in place, CF is the bit shifted out. -/
def execShr (x : Reg) (s : State) : Result :=
  .next (s.writeResultFlag x (cellShr (s.readV x)) (shrFlag (s.readV x)))

/-- SUBN Vx, Vy (R139): `V[y] - V[x]` to `V[x]`, borrow polarity. -/
def execSubnReg (x y : Reg) (s : State) : Result :=
  .next (s.writeResultFlag x (cellSub (s.readV y) (s.readV x)) (borrowFlag (s.readV y) (s.readV x)))

/-- SHL Vx (R140): `V[x]` in place, CF is the bit shifted out at the top. -/
def execShl (x : Reg) (s : State) : Result :=
  .next (s.writeResultFlag x (cellShl (s.readV x)) (shlFlag (s.readV x)))

end Sys2Proof.Machine
end

