-- ==== Sys2Proof/Machine/IndexMemory.lean ====
section
/-! DEFINITION. Index-register and memory instructions (43_index_memory.md). None of them changes `I` as a side effect of an
access (R156). -/

namespace Sys2Proof.Machine

/-- A store of `bytes` at `I` upward, then advance; AddressOutOfBounds(I), and no effect, where the range leaves memory
(43_index_memory.md R156, 60_exceptions.md R203). -/
def State.storeAtI (bytes : List Byte) (s : State) : State :=
  match s.memWrite s.dataAddress bytes with
  | some t => t.advance
  | none => raise .addressOutOfBounds s.idx s

/-- LD I, nnn (R150). -/
def execLdI (nnn : Addr) (s : State) : Result := .next (s.setI (addrWord nnn)).advance

/-- ADD I, Vx (R151): modulo 65536, CF unchanged. -/
def execAddI (x : Reg) (s : State) : Result := .next (s.setI (s.idx + byteWord (s.readV x))).advance

/-- LD F, Vx (R152): the address of the font sprite of the low nibble of `V[x]`. -/
def execLdF (x : Reg) (s : State) : Result := .next (s.setI (fontAddress s.env.fontBase (s.readV x))).advance

/-- LD B, Vx (R153): hundreds, tens and ones of `V[x]` at `I`, `I + 1`, `I + 2`. -/
def execLdB (x : Reg) (s : State) : Result := .next (s.storeAtI (bcdDigits (s.readV x)))

/-- LD [I], Vx (R154): `V[0]`..`V[x]` to `I`..`I + x`. -/
def execStoreRegs (x : Reg) (s : State) : Result := .next (s.storeAtI (s.readVBlock x))

/-- LD Vx, [I] (R155): `V[0]`..`V[x]` from `I`..`I + x`. -/
def execLoadRegs (x : Reg) (s : State) : Result :=
  .next (match s.memRead s.dataAddress (x.val + 1) with
    | some bytes => (s.setVBlock bytes).advance
    | none => raise .addressOutOfBounds s.idx s)

end Sys2Proof.Machine
end

