-- ==== Sys2Proof/Machine/Ports.lean ====
section
/-! DEFINITION. CORE's side of the ports (60_exceptions.md R220 to R227): requests sent, answers received, the trace output.
An answer is the next one lined up, or a free value of Config where none is (00_scope.md R15). -/

namespace Sys2Proof.Machine

/-- Send a request that has no answer: `DisplayClear()` (60_exceptions.md R222). -/
def State.send (q : Request) (s : State) : State :=
  { s with env := { s.env with requests := s.env.requests ++ [q] } }

/-- The answer of `Random()` (44_timers_random_io.md R173). -/
def State.randomAnswer (s : State) : Byte := s.env.randoms.head?.getD (Config.freeRandom s.env.draws)

/-- After `Random()` has been asked and answered. -/
def State.afterRandom (s : State) : State :=
  { s with env := { s.env with
      randoms := s.env.randoms.tail, draws := s.env.draws + 1, requests := s.env.requests ++ [.random] } }

/-- The answer of `DisplayDraw(xpos, ypos, sprite)` (44_timers_random_io.md R174): CORE holds nothing that constrains it
(R175). -/
def State.drawAnswer (s : State) : Bool := s.env.collisions.head?.getD (Config.freeCollision s.env.draws)

/-- After `DisplayDraw(xpos, ypos, sprite)` has been asked and answered. -/
def State.afterDraw (xpos ypos : Byte) (sprite : List Byte) (s : State) : State :=
  { s with env := { s.env with
      collisions := s.env.collisions.tail, draws := s.env.draws + 1,
      requests := s.env.requests ++ [.displayDraw xpos ypos sprite] } }

/-- The answer of `KeyPressed(k)` (44_timers_random_io.md R176). -/
def State.pressedAnswer (s : State) : Bool := s.env.presses.head?.getD (Config.freePressed s.env.draws)

/-- After `KeyPressed(k)` has been asked and answered. -/
def State.afterPressed (k : Byte) (s : State) : State :=
  { s with env := { s.env with
      presses := s.env.presses.tail, draws := s.env.draws + 1, requests := s.env.requests ++ [.keyPressed k] } }

/-- The answer of `KeyWait()`: `none` or a key (44_timers_random_io.md R178). -/
def State.keyWaitAnswer (s : State) : Option Key := s.env.keyWaits.head?.getD (Config.freeKeyWait s.env.draws)

/-- After `KeyWait()` has been asked and answered. -/
def State.afterKeyWait (s : State) : State :=
  { s with env := { s.env with
      keyWaits := s.env.keyWaits.tail, draws := s.env.draws + 1, requests := s.env.requests ++ [.keyWait] } }

/-- The trace output of a cycle that fetched `instr`: (`IP`, `instr`) and the unrecognized pulse (60_exceptions.md R227,
R207). -/
def State.emitTrace (instr : Word) (s : State) : State :=
  { s with env := { s.env with
      trace := s.env.trace ++ [⟨s.ip, instr, (decode instr).isUnrecognized⟩] } }

/-- The moves still to come. -/
def State.setMoves (ms : List Move) (s : State) : State := { s with env := { s.env with moves := ms } }

end Sys2Proof.Machine
end

