-- ==== Sys2Proof/Machine/SystemControl.lean ====
section
/-! DEFINITION. System and control-transfer instructions (40_system_control.md). -/

namespace Sys2Proof.Machine

/-- HALT (R100): `RUN <- HALTED`, `IP` stays. -/
def execHalt (s : State) : Result := .next { s with run := .halted }

/-- CLS (R101): one clear request, then advance. -/
def execCls (s : State) : Result := .next (s.send .displayClear).advance

/-- RET (R102): `IP` from the stack, no advance on top; StackUnderflow on an empty one. An `SP` above 16 has no slot (log
entry 2). -/
def execRet (s : State) : Result :=
  if s.sp = 0 then .next (raise .stackUnderflow s.ip s)
  else
    match s.pop with
    | some (target, t) => .next (t.jump target)
    | none => .fault .stackPointerIllegal

/-- JP nnn (R103). -/
def execJp (nnn : Addr) (s : State) : Result := .next (s.jump (addrWord nnn))

/-- CALL nnn (R104): push `IP + 2`, jump; StackOverflow with sixteen live entries. An `SP` above 16 has no slot (log entry
2). -/
def execCall (nnn : Addr) (s : State) : Result :=
  if s.sp = 16 then .next (raise .stackOverflow s.ip s)
  else
    match s.push (s.ip + 2) with
    | some t => .next (t.jump (addrWord nnn))
    | none => .fault .stackPointerIllegal

/-- JP V0, nnn (R105): no reduction of the sum. -/
def execJpV0 (nnn : Addr) (s : State) : Result := .next (s.jump (addrWord nnn + byteWord (s.readV 0)))

/-- UNRECOGNIZED (R106): advance, whatever the word. -/
def execUnrecognized (_w : Word) (s : State) : Result := .next s.advance

end Sys2Proof.Machine
end

