-- ==== Sys2Proof/Machine/TimersIo.lean ====
section
/-! DEFINITION. Timer, random, display and key instructions (44_timers_random_io.md): CORE's side of the ports. -/

namespace Sys2Proof.Machine

/-- LD Vx, DT (R170). -/
def execLdVxDT (x : Reg) (s : State) : Result := .next (s.setV x s.dt).advance

/-- LD DT, Vx (R171). -/
def execLdDTVx (x : Reg) (s : State) : Result := .next (s.setDT (s.readV x)).advance

/-- LD ST, Vx (R172). -/
def execLdSTVx (x : Reg) (s : State) : Result := .next (s.setST (s.readV x)).advance

/-- RND Vx, kk (R173): a byte of the environment's masked by `kk`. -/
def execRnd (x : Reg) (kk : Byte) (s : State) : Result :=
  .next (s.afterRandom.setV x (s.randomAnswer &&& kk)).advance

/-- DRW Vx, Vy, n (R174): one draw request with the unreduced coordinates and the `n` bytes at `I`; CF is the answer.
AddressOutOfBounds(I), and no request, where the sprite's range leaves memory. -/
def execDrw (x y : Reg) (n : Fin 16) (s : State) : Result :=
  .next (match s.readSprite n with
    | some sprite => ((s.afterDraw (s.readV x) (s.readV y) sprite).setCF (collisionFlag s.drawAnswer)).advance
    | none => raise .addressOutOfBounds s.idx s)

/-- SKP Vx (R176): skip if the key whose index is the full `V[x]` is reported pressed. -/
def execSkp (x : Reg) (s : State) : Result :=
  .next ((s.afterPressed (s.readV x)).skipIf s.pressedAnswer)

/-- SKNP Vx (R177): skip if it is reported not pressed. -/
def execSknp (x : Reg) (s : State) : Result :=
  .next ((s.afterPressed (s.readV x)).skipIf (!s.pressedAnswer))

/-- LD Vx, K (R178): one key-wait question a cycle; while it is answered `none` nothing of CORE changes, `IP` included, so
the same instruction is fetched again. -/
def execLdVxK (x : Reg) (s : State) : Result :=
  .next (match s.keyWaitAnswer with
    | some k => (s.afterKeyWait.setV x (keyByte k)).advance
    | none => s.afterKeyWait)

end Sys2Proof.Machine
end

