-- ==== Sys2Proof/Machine/Moves.lean ====
section
/-! DEFINITION. The moves of the agents of 00_scope.md R8: the instruction cycle (70_reset_and_hazards.md R249), the tick
(60_exceptions.md R216) and the host's operations (70_reset_and_hazards.md R240 to R246). -/

namespace Sys2Proof.Machine

/-- One instruction cycle with the stop input at this level (70_reset_and_hazards.md R249): stop is sampled first, then the
fetch checks, then the word is fetched, traced, decoded and executed. Taken only while RUNNING: in any other run
state nothing changes (10_state.md R33; log entry 3). -/
def cycle (stop : Bool) (s : State) : Result :=
  if s.run ≠ .running then .next s
  else if stop then .next { s with run := .stopped }
  else
    match fetchCheck s.ip with
    | some c => .next (raise c s.ip s)
    | none => exec (decode s.fetchWord) (s.emitTrace s.fetchWord)

/-- A timer counts down and stops at zero (60_exceptions.md R216). -/
def timerTick (b : Byte) : Byte := if b = 0 then 0 else b - 1

/-- One tick event: both timers, only while RUNNING (60_exceptions.md R216). -/
def State.tick (s : State) : State :=
  if s.run = .running then { s with dt := timerTick s.dt, st := timerTick s.st } else s

/-- The host's `Reset`: all state of CORE to its reset value, in any run state (70_reset_and_hazards.md R240). -/
def State.hostReset (s : State) : State := { State.reset with env := s.env }

/-- The host's `LoadRom(bytes)`: at most ROM_MAX bytes copied from 0x200 upward, the rest dropped
(70_reset_and_hazards.md R245). -/
def State.loadRom (bytes : List Byte) (s : State) : State :=
  { s with mem := s.mem.writeList Config.progBase (bytes.take Config.romMax) }

/-- The host's `Start`: `IP <- 0x0200`, `RUN <- RUNNING` (70_reset_and_hazards.md R246). -/
def State.start (s : State) : State := { s with ip := 0x0200, run := .running }

/-- One move. LoadRom and Start are no moves outside IDLE (70_reset_and_hazards.md R244, U21; log entry 4). -/
def takeMove (m : Move) (s : State) : Result :=
  match m with
  | .cycle stop => cycle stop s
  | .tick => .next s.tick
  | .reset => .next s.hostReset
  | .loadRom bytes => if s.run = .idle then .next (s.loadRom bytes) else .refused .hostMoveNotAllowed
  | .start => if s.run = .idle then .next s.start else .refused .hostMoveNotAllowed

/-- The next move in the order the environment gives; where it gives none, the core's next cycle with stop low (log entry
5). -/
def nextMove (s : State) : Result :=
  match s.env.moves with
  | [] => cycle false s
  | m :: rest => takeMove m (s.setMoves rest)

/-- The boot order after Reset: `LoadRom(bytes)`, then `Start` (70_reset_and_hazards.md R243), lined up as the next moves.
Log entry 15. -/
def State.boot (bytes : List Byte) (s : State) : State := s.setMoves [.loadRom bytes, .start]

/-- Where an instruction is placed for `withFetchWord`: at IP where a fetch is legal, else at the entry point. -/
def State.fetchPlace (s : State) : Word := if fetchCheck s.ip = none then s.ip else 0x0200

/-- The state whose very next step fetches and runs the word `w`: RUNNING, no other agent's move before it, IP at a legal
fetch address, the word there high byte first. Log entry 15. -/
def State.placeWord (w : Word) (s : State) : State :=
  { (s.setMoves []) with
    run := .running
    ip := s.fetchPlace
    mem := s.mem.writeList s.fetchPlace.toNat [highByte w, lowByte w] }

end Sys2Proof.Machine
end

