-- ==== Sys2Proof/Safety.lean ====
section
/-! DEFINITION. The terms claims use: a safe run, the invariant of the machine's states, and the frame of an instruction. -/

namespace Sys2Proof.Machine

/-- No fatal condition has been raised (60_exceptions.md R200). -/
abbrev State.Safe (s : State) : Prop := s.run ≠ .fatal

/-- The run is over (70_reset_and_hazards.md R250). -/
abbrev State.Over (s : State) : Prop := s.run = .halted ∨ s.run = .stopped ∨ s.run = .fatal

/-- The core's own cycle is next, with stop low: RUNNING, and no move or a cycle that samples stop low is lined up
(70_reset_and_hazards.md R249; the moves: log entries 5, 6). -/
abbrev State.AtCycle (s : State) : Prop :=
  s.run = .running ∧ (s.env.moves = [] ∨ s.env.moves.head? = some (.cycle false))

/-- `IP` is an address an instruction is fetched from (20_memory.md R57). -/
abbrev State.FetchLegal (s : State) : Prop := 0x0200 ≤ s.ip.toNat ∧ s.ip.toNat ≤ 0x0FFE ∧ s.ip.toNat % 2 = 0

/-- A data access of the instruction presents an address above 4095 to memory (60_exceptions.md R203). -/
abbrev State.AccessLeavesMemory (i : Instr) (s : State) : Prop :=
  (∃ x, i = .ldB x ∧ 4096 < s.idx.toNat + 3) ∨
  (∃ x : Reg, (i = .storeRegs x ∨ i = .loadRegs x) ∧ 4096 < s.idx.toNat + x.val + 1) ∨
  ∃ (x y : Reg) (n : Fin 16), i = .drw x y n ∧ 0 < n.val ∧ 4096 < s.idx.toNat + n.val

/-- The instruction's own fatal conditions, as 60_exceptions.md R201, R202 and R203 list them. -/
abbrev State.OwnCondition (i : Instr) (s : State) : Prop :=
  ((∃ nnn, i = .call nnn) ∧ s.sp = 16) ∨ (i = .ret ∧ s.sp = 0) ∨ s.AccessLeavesMemory i

/-- What the byte at `a` holds once `bytes` have been stored at `I` upward (20_memory.md R56). -/
def State.byteAfterStore (bytes : List Byte) (s : State) (a : Nat) : Byte :=
  if s.idx.toNat ≤ a then (bytes[a - s.idx.toNat]?).getD (s.readByte a) else s.readByte a

/-- What holds of every state a run reaches. Each field names the rule it formalises. -/
structure State.Inv (s : State) : Prop where
  /-- memory is in its canonical form, every address below 4096 (20_memory.md R50) -/
  memWf : s.mem.wf = true
  /-- `SP` is 0 to 16 (10_state.md R27) -/
  spLe : s.sp.toNat ≤ 16
  /-- a live stack entry is even and between 0x0202 and 0x1000 (40_system_control.md R102) -/
  slots : ∀ k : Fin 16, k.val < s.sp.toNat →
    (s.readSlot k).toNat % 2 = 0 ∧ 0x0202 ≤ (s.readSlot k).toNat ∧ (s.readSlot k).toNat ≤ 0x1000
  /-- `CF` is 0x00 or 0x01 (10_state.md R23) -/
  cfBit : s.cf = 0x00 ∨ s.cf = 0x01
  /-- the largest value any rule writes into `IP` is 0x10FE (10_state.md R26) -/
  ipLe : s.ip.toNat ≤ 0x10FE
  /-- `FAULT` is written by a fatal condition alone, with a code 1 to 5 (10_state.md R34, 60_exceptions.md R206) -/
  faultRecord : (s.run = .fatal ∧ 1 ≤ s.fault.code.toNat ∧ s.fault.code.toNat ≤ 5) ∨
    (s.run ≠ .fatal ∧ s.fault = ⟨0, 0x0000⟩)
  /-- in IDLE all but memory from 0x200 upward holds its reset value (70_reset_and_hazards.md R242, R244, R245) -/
  idleReset : s.run = .idle →
    s = { State.reset with mem := s.mem, env := s.env } ∧ ∀ a, a < 0x200 → s.readByte a = 0x00

/-- What an instruction may change beside `IP`: each field says so of one kind of state; left out, it is not touched. -/
structure Touch where
  v : List Reg := []
  cf : Bool := false
  idx : Bool := false
  sp : Bool := false
  slots : List Nat := []
  dt : Bool := false
  st : Bool := false
  run : Bool := false
  fault : Bool := false
  /-- the bytes stored to: a first address and a number of bytes -/
  bytes : Nat × Nat := (0, 0)
  env : Bool := false

/-- The frame from `s` to `t`: everything outside `may` is unchanged, every general register, stack slot and byte of memory
included. `IP` is not spoken of. -/
structure Frame (may : Touch) (s t : State) : Prop where
  v : ∀ j : Reg, j ∉ may.v → t.readV j = s.readV j
  cf : may.cf = false → t.cf = s.cf
  idx : may.idx = false → t.idx = s.idx
  sp : may.sp = false → t.sp = s.sp
  slots : ∀ k : Fin 16, k.val ∉ may.slots → t.readSlot k = s.readSlot k
  dt : may.dt = false → t.dt = s.dt
  st : may.st = false → t.st = s.st
  run : may.run = false → t.run = s.run
  fault : may.fault = false → t.fault = s.fault
  bytes : ∀ a : Nat, a < may.bytes.1 ∨ may.bytes.1 + may.bytes.2 ≤ a → t.readByte a = s.readByte a
  env : may.env = false → t.env = s.env

end Sys2Proof.Machine
end

