-- ==== Sys2Proof/Certificates/Slice0/Obligations.lean ====
section
/-! DEFINITION. The statements for the provers. Each says what it formalises; "the spec's decision D<n>" names a point the
spec marks as its own choice (92_eei_decisions.md), "log entry <n>" one of the model's. -/

open Sys2Proof Sys2Proof.Machine

/-! ## Encoding -/

/-- Words written out from 30_encoding.md R85 and 95_test_vectors.md section 3 decode to the instruction listed there. -/
def Obligations.SpecWordsDecodeAsListed : Prop :=
  decode 0x0000 = .halt ∧ decode 0x1ABC = .jp 0xABC ∧ decode 0x3A7F = .seImm 0xA 0x7F ∧
  decode 0x7105 = .addImm 1 0x05 ∧ decode 0x8014 = .addReg 0 1 ∧ decode 0x8ABE = .shl 0xA ∧
  decode 0xAABC = .ldI 0xABC ∧ decode 0xDAB5 = .drw 0xA 0xB 5 ∧ decode 0xEAA1 = .sknp 0xA ∧ decode 0xFA65 = .loadRegs 0xA ∧
  decode 0x5AB1 = .unrecognized 0x5AB1 ∧
  decodeBytes [0x71, 0x05, 0xFF] = .ok (.addImm 1 0x05, [0xFF]) ∧ decodeBytes [0x71] = .error .truncated

/-- Decode and encode agree: every well-formed instruction, with every operand at every value, is read back from its word
(30_encoding.md, sections 1 and 2). -/
def Obligations.DecodeOfEncodeIsTheInstruction : Prop :=
  ∀ i : Instr, i.wf = true → decode (encode i) = i

/-- The other direction: every word decodes to a well-formed instruction whose word is the one decoded, but for the `y` field
of SHR and SHL, which takes part in nothing (30_encoding.md section 2, decision D13) and is written 0 (log entry 17). -/
def Obligations.EncodeOfDecodeKeepsEveryUsedBit : Prop :=
  ∀ w : Word, (decode w).wf = true ∧
    (encode (decode w)).toNat =
      if w.toNat / 4096 = 0x8 ∧ (w.toNat % 16 = 0x6 ∨ w.toNat % 16 = 0xE) then w.toNat / 256 * 256 + w.toNat % 16
      else w.toNat

/-- The decoder against the masks and matches of 30_encoding.md section 2: every word selects exactly the row of the
instruction it decodes to, or no row where it decodes to UNRECOGNIZED; no two rows overlap. (Strictness: the spec's decision
D11.) -/
def Obligations.EveryWordSelectsExactlyItsOpcodeRow : Prop :=
  ∀ w : Word, (opcodeMap.filter fun r => w &&& r.mask == r.pattern).map (fun r => r.mnemonic) =
    if (decode w).isUnrecognized then [] else [(decode w).mnemonic]

/-- The unrecognized words are the ones 30_encoding.md section 3 enumerates by family (strictness: decision D11). -/
def Obligations.UnrecognizedWordsAreTheEnumeratedOnes : Prop :=
  ∀ w : Word, decode w = .unrecognized w ↔
    (w.toNat / 4096 = 0x0 ∧ w.toNat ≠ 0x0000 ∧ w.toNat ≠ 0x00E0 ∧ w.toNat ≠ 0x00EE) ∨
    (w.toNat / 4096 = 0x5 ∧ w.toNat % 16 ≠ 0) ∨
    (w.toNat / 4096 = 0x8 ∧ 0x8 ≤ w.toNat % 16 ∧ w.toNat % 16 ≠ 0xE) ∨
    (w.toNat / 4096 = 0x9 ∧ w.toNat % 16 ≠ 0) ∨
    (w.toNat / 4096 = 0xE ∧ w.toNat % 256 ≠ 0x9E ∧ w.toNat % 256 ≠ 0xA1) ∨
    (w.toNat / 4096 = 0xF ∧ w.toNat % 256 ∉ [0x07, 0x0A, 0x15, 0x18, 0x1E, 0x29, 0x33, 0x55, 0x65])

/-- The `y` field of `8xy6` and `8xyE` takes part in neither decoding nor execution: every value of it gives the same
instruction, and every general register but `V[x]` is neither read nor written by it (the spec's decision D13). -/
def Obligations.ShiftsIgnoreTheYField : Prop :=
  ∀ (x y : Reg),
    decode (BitVec.ofNat 16 (0x8006 + 256 * x.val + 16 * y.val)) = .shr x ∧
    decode (BitVec.ofNat 16 (0x800E + 256 * x.val + 16 * y.val)) = .shl x ∧
    ∀ (i : Instr) (s : State) (b : Byte), i = .shr x ∨ i = .shl x → y ≠ x →
      ∃ t, exec i s = .next t ∧ t.readV y = s.readV y ∧ exec i (s.setV y b) = .next (t.setV y b)

/-! ## The step -/

/-- A step runs the decoded instruction: where the two bytes at a legal IP decode to `i`, the core is RUNNING and its cycle
is next with stop low, the step is exec of `i` on the state with that move taken and the trace entry of the cycle added
(70_reset_and_hazards.md section 3; the moves: log entry 5; the trace: log entry 13). -/
def Obligations.StepRunsTheDecodedInstruction : Prop :=
  ∀ (s : State) (rest : List Move) (i : Instr),
    (s.env.moves = [] ∧ rest = []) ∨ s.env.moves = .cycle false :: rest →
    s.run = .running → 0x200 ≤ s.ip.toNat → s.ip.toNat ≤ 0xFFE → s.ip.toNat % 2 = 0 →
    decodeBytes [s.readByte s.ip.toNat, s.readByte (s.ip.toNat + 1)] = .ok (i, []) →
    step s = exec i { s with env := { s.env with
      moves := rest
      trace := s.env.trace ++
        [⟨s.ip, wordOfBytes (s.readByte s.ip.toNat) (s.readByte (s.ip.toNat + 1)), i.isUnrecognized⟩] } }

/-- The fetch checks in the spec's order (20_memory.md section 3; decisions D6, D7, D8, D10): out of bounds, reserved,
misaligned, each recorded as FAULT = (code, IP) (the record and its codes: decision D9) with no other effect; else the big-endian
word at IP is decoded and executed. The model's choices: the move taken (log entry 5), and the trace entry the last clause
appends, an output the spec makes optional (decision D31; log entry 13). -/
def Obligations.FetchChecksComeInOrder : Prop :=
  ∀ s : State, s.env.moves = [] ∨ s.env.moves.head? = some (.cycle false) → s.run = .running →
    (0x0FFE < s.ip.toNat →
      step s = .next { s with run := .fatal, fault := ⟨3, s.ip⟩, env := { s.env with moves := s.env.moves.tail } }) ∧
    (s.ip.toNat < 0x0200 →
      step s = .next { s with run := .fatal, fault := ⟨5, s.ip⟩, env := { s.env with moves := s.env.moves.tail } }) ∧
    (0x0200 ≤ s.ip.toNat → s.ip.toNat ≤ 0x0FFE → s.ip.toNat % 2 = 1 →
      step s = .next { s with run := .fatal, fault := ⟨4, s.ip⟩, env := { s.env with moves := s.env.moves.tail } }) ∧
    (0x0200 ≤ s.ip.toNat → s.ip.toNat ≤ 0x0FFE → s.ip.toNat % 2 = 0 →
      ∃ instr : Word,
        instr.toNat = (s.readByte s.ip.toNat).toNat * 256 + (s.readByte (s.ip.toNat + 1)).toNat ∧
        step s = exec (decode instr) { s with env := { s.env with
          moves := s.env.moves.tail
          trace := s.env.trace ++ [⟨s.ip, instr, (decode instr).isUnrecognized⟩] } })

/-- Stop is sampled first: nothing is fetched, and only RUN changes, whatever IP holds (70_reset_and_hazards.md sections 2
and 3, decision D27). The model's choices: a stop level is carried by the cycle's move (log entry 6), and taking it off the list
is all that happens to the environment's side (log entry 5). -/
def Obligations.StopIsSampledBeforeTheFetch : Prop :=
  ∀ (s : State) (rest : List Move), s.env.moves = .cycle true :: rest → s.run = .running →
    ∃ t, step s = .next t ∧ t.run = .stopped ∧ t.ip = s.ip ∧ t.env = { s.env with moves := rest } ∧
      Frame { run := true, env := true } s t

/-- In IDLE and in the terminal states the core takes no step and a tick has no effect (10_state.md section 9, decision D15).
The model's choices: a cycle due there is a step that changes nothing (log entry 3), and the move is taken off the list (log
entry 5). -/
def Obligations.NothingChangesUnlessRunning : Prop :=
  ∀ s : State, s.run ≠ .running →
    (s.env.moves = [] → step s = .next s) ∧
    ∀ (m : Move) (rest : List Move), s.env.moves = m :: rest → m = .cycle true ∨ m = .cycle false ∨ m = .tick →
      step s = .next { s with env := { s.env with moves := rest } }

/-- One tick serves both timers: each that is not zero goes down by one, one at zero stays there; nothing else changes
(60_exceptions.md section 5, decision D15). The model's choice: the tick is a move of the list, and taking it off is all that
happens to the environment's side (log entry 5). -/
def Obligations.TickCountsBothTimersDown : Prop :=
  ∀ (s : State) (rest : List Move), s.env.moves = .tick :: rest → s.run = .running →
    ∃ t, step s = .next t ∧
      (s.dt ≠ 0x00 → t.dt.toNat + 1 = s.dt.toNat) ∧ (s.dt = 0x00 → t.dt = 0x00) ∧
      (s.st ≠ 0x00 → t.st.toNat + 1 = s.st.toNat) ∧ (s.st = 0x00 → t.st = 0x00) ∧
      t.ip = s.ip ∧ t.env = { s.env with moves := rest } ∧ Frame { dt := true, st := true, env := true } s t

/-- The host's Reset, in any run state: every piece of state has its reset value (70_reset_and_hazards.md section 1,
decisions D14, D28). The model's choices: the environment's side is no state of CORE, so that Reset leaves all of it, FONT_BASE, the
answers lined up and the outputs included (log entry 12), but for the move taken (log entry 5). -/
def Obligations.ResetMoveRestoresEveryResetValue : Prop :=
  ∀ (s : State) (rest : List Move), s.env.moves = .reset :: rest →
    ∃ t, step s = .next t ∧
      (∀ j : Reg, t.readV j = 0x00) ∧ t.cf = 0x00 ∧ t.sp = 0x00 ∧ t.dt = 0x00 ∧ t.st = 0x00 ∧
      t.idx = 0x0000 ∧ t.ip = 0x0000 ∧ (∀ k : Fin 16, t.readSlot k = 0x0000) ∧ (∀ a : Nat, t.readByte a = 0x00) ∧
      t.run = .idle ∧ t.fault = ⟨0, 0x0000⟩ ∧ t.env = { s.env with moves := rest }

/-- LoadRom in IDLE: the bytes go to 0x200 upward in order, those beyond 3584 are dropped, no other state changes
(70_reset_and_hazards.md section 2). The model's choice: LoadRom is a move of the list, and taking it off is all that happens to
the environment's side (log entry 5). -/
def Obligations.LoadRomCopiesUpToCapacity : Prop :=
  ∀ (s : State) (bytes : List Byte) (rest : List Move),
    s.env.moves = .loadRom bytes :: rest → s.run = .idle → s.mem.wf = true →
    ∃ t, step s = .next t ∧
      (∀ j : Nat, j < min bytes.length 3584 → bytes[j]? = some (t.readByte (0x200 + j))) ∧
      t.ip = s.ip ∧ t.env = { s.env with moves := rest } ∧
      Frame { bytes := (0x200, min bytes.length 3584), env := true } s t

/-- Start in IDLE: `IP <- 0x0200`, `RUN <- RUNNING`, nothing else (70_reset_and_hazards.md section 2). The model's choice:
Start is a move of the list, and taking it off is all that happens to the environment's side (log entry 5). -/
def Obligations.StartSeedsIPAndRuns : Prop :=
  ∀ (s : State) (rest : List Move), s.env.moves = .start :: rest → s.run = .idle →
    ∃ t, step s = .next t ∧ t.ip = 0x0200 ∧ t.run = .running ∧ t.env = { s.env with moves := rest } ∧
      Frame { run := true, env := true } s t

/-- LoadRom and Start outside IDLE are no moves of the machine: refused by name (70_reset_and_hazards.md section 2,
93_implementation_defined.md U21; the refusal is the model's rendering: log entry 4). -/
def Obligations.LoadRomAndStartAreRefusedOutsideIdle : Prop :=
  ∀ (s : State) (m : Move) (rest : List Move), s.env.moves = m :: rest → s.run ≠ .idle →
    m = .start ∨ (∃ bytes, m = .loadRom bytes) → step s = .refused .hostMoveNotAllowed

/-- The state after Reset, value by value (10_state.md section 11, decisions D3, D9, D14, D28), and the parameter FONT_BASE at
its default 0x000 (log entry 7). -/
def Obligations.ResetStateHoldsTheSpecsValues : Prop :=
  (∀ j : Reg, State.reset.readV j = 0x00) ∧ State.reset.cf = 0x00 ∧ State.reset.sp = 0x00 ∧ State.reset.dt = 0x00 ∧
  State.reset.st = 0x00 ∧ State.reset.idx = 0x0000 ∧ State.reset.ip = 0x0000 ∧
  (∀ k : Fin 16, State.reset.readSlot k = 0x0000) ∧ (∀ a : Nat, State.reset.readByte a = 0x00) ∧
  State.reset.run = .idle ∧ State.reset.fault = ⟨0, 0x0000⟩ ∧ State.reset.env.fontBase.val = 0x000

/-- The boot order from reset, LoadRom then Start, leads to the launch state of a program for every image (10_state.md section
11, 70_reset_and_hazards.md section 2, decisions D14, D28): IP at 0x200, RUNNING, the image at 0x200 upward, every other
cell and register at its reset value. The model's choices: the two host operations are lined up as moves (log entries 5, 15),
and the environment's side ends with the values the model gives it at reset (log entry 12). -/
def Obligations.BootLeadsToTheLaunchState : Prop :=
  ∀ bytes : List Byte, ∃ s₁ s₂, step (State.reset.boot bytes) = .next s₁ ∧ step s₁ = .next s₂ ∧
    s₂.run = .running ∧ s₂.ip = 0x0200 ∧
    (∀ j : Nat, j < min bytes.length 3584 → bytes[j]? = some (s₂.readByte (0x200 + j))) ∧
    s₂.env = State.reset.env ∧
    Frame { run := true, bytes := (0x200, min bytes.length 3584) } State.reset s₂

/-! ## System and control-transfer instructions -/

/-- HALT changes only RUN, IP stays, and with no move lined up the step after it changes nothing; the word `0x0000` at a legal
IP is that instruction (40_system_control.md, HALT; decision D18). The model's choices: a cycle due after HALT is a step that
changes nothing (log entry 3), an empty list is a cycle with stop low (log entry 5), and the trace entry of the cycle is
appended, an output the spec makes optional (decision D31; log entry 13). -/
def Obligations.HaltEndsTheRunInPlace : Prop :=
  ∀ s : State, ∃ t, exec .halt s = .next t ∧ t.run = .halted ∧ t.ip = s.ip ∧ Frame { run := true } s t ∧
    (s.env.moves = [] → step t = .next t) ∧
    (s.env.moves = [] → s.run = .running → 0x200 ≤ s.ip.toNat → s.ip.toNat ≤ 0xFFE → s.ip.toNat % 2 = 0 →
      s.readByte s.ip.toNat = 0x00 → s.readByte (s.ip.toNat + 1) = 0x00 →
      step s = .next { t with env := { s.env with trace := s.env.trace ++ [⟨s.ip, 0x0000, false⟩] } })

/-- CLS: one clear request on the display port, then advance; nothing else (40_system_control.md, CLS). The model's choice: the
requests sent are kept as a list (log entry 13). -/
def Obligations.ClsSendsOneClearRequest : Prop :=
  decode 0x00E0 = .cls ∧ ∀ s : State, ∃ t, exec .cls s = .next t ∧ t.ip = s.ip + 2 ∧
    t.env = { s.env with requests := s.env.requests ++ [.displayClear] } ∧ Frame { env := true } s t

/-- RET: StackUnderflow on an empty stack, with no other effect; else IP from the entry at the new SP, which keeps its
content (40_system_control.md, RET; decision D17). -/
def Obligations.RetPopsIntoIP : Prop :=
  decode 0x00EE = .ret ∧ ∀ s : State,
    (s.sp = 0x00 → exec .ret s = .next { s with run := .fatal, fault := ⟨2, s.ip⟩ }) ∧
    ∀ k : Fin 16, s.sp.toNat = k.val + 1 →
      ∃ t, exec .ret s = .next t ∧ t.sp.toNat = k.val ∧ t.ip = s.readSlot k ∧ Frame { sp := true } s t

/-- CALL: StackOverflow with sixteen live entries, with no other effect; else `IP + 2` is pushed at SP, SP goes up by one, and
IP is the target (40_system_control.md, CALL; 60_exceptions.md sections 1 and 3; the record of the condition: decision D9). -/
def Obligations.CallPushesAndJumps : Prop :=
  ∀ (nnn : Addr) (s : State),
    decode (BitVec.ofNat 16 (0x2000 + nnn.toNat)) = .call nnn ∧
    (s.sp.toNat = 16 → exec (.call nnn) s = .next { s with run := .fatal, fault := ⟨1, s.ip⟩ }) ∧
    ∀ k : Fin 16, s.sp.toNat = k.val →
      ∃ t, exec (.call nnn) s = .next t ∧ t.readSlot k = s.ip + 2 ∧ t.sp.toNat = k.val + 1 ∧
        t.ip.toNat = nnn.toNat ∧ Frame { sp := true, slots := [k.val] } s t

/-- An SP above 16, which no rule ever writes (10_state.md section 6), names no slot: CALL and RET stop by name. The stop is
the model's: log entry 2. -/
def Obligations.StackPointerAboveSixteenStops : Prop :=
  ∀ s : State, 16 < s.sp.toNat →
    exec .ret s = .fault .stackPointerIllegal ∧ ∀ nnn : Addr, exec (.call nnn) s = .fault .stackPointerIllegal

/-- The jumps: JP sets IP to `nnn`; JP V0 to `nnn + V[0]`, whatever the word's other fields, with no reduction of the sum;
nothing else changes. -/
def Obligations.JumpsSetIPAbsolutely : Prop :=
  ∀ (nnn : Addr) (s : State),
    decode (BitVec.ofNat 16 (0x1000 + nnn.toNat)) = .jp nnn ∧
    decode (BitVec.ofNat 16 (0xB000 + nnn.toNat)) = .jpV0 nnn ∧
    (∃ t, exec (.jp nnn) s = .next t ∧ t.ip.toNat = nnn.toNat ∧ Frame {} s t) ∧
    ∃ t, exec (.jpV0 nnn) s = .next t ∧ t.ip.toNat = nnn.toNat + (s.readV 0).toNat ∧ Frame {} s t

/-- A word that matches no row of the opcode map is a no-op that advances: nothing but IP changes. -/
def Obligations.UnrecognizedWordsOnlyAdvance : Prop :=
  ∀ (w : Word) (s : State),
    ((∀ r ∈ opcodeMap, w &&& r.mask ≠ r.pattern) → decode w = .unrecognized w) ∧
    ∃ t, exec (.unrecognized w) s = .next t ∧ t.ip = s.ip + 2 ∧ Frame {} s t

/-! ## Skips -/

/-- SE and SNE, with an immediate and with a register: IP + 4 where the condition holds, else IP + 2, and nothing else. -/
def Obligations.SkipsAreTakenExactlyOnTheirCondition : Prop :=
  ∀ (x y : Reg) (kk : Byte) (s : State),
    (decode (BitVec.ofNat 16 (0x3000 + 256 * x.val + kk.toNat)) = .seImm x kk ∧
      ∃ t, exec (.seImm x kk) s = .next t ∧ t.ip = (if s.readV x = kk then s.ip + 4 else s.ip + 2) ∧ Frame {} s t) ∧
    (decode (BitVec.ofNat 16 (0x4000 + 256 * x.val + kk.toNat)) = .sneImm x kk ∧
      ∃ t, exec (.sneImm x kk) s = .next t ∧ t.ip = (if s.readV x ≠ kk then s.ip + 4 else s.ip + 2) ∧ Frame {} s t) ∧
    (decode (BitVec.ofNat 16 (0x5000 + 256 * x.val + 16 * y.val)) = .seReg x y ∧
      ∃ t, exec (.seReg x y) s = .next t ∧ t.ip = (if s.readV x = s.readV y then s.ip + 4 else s.ip + 2) ∧
        Frame {} s t) ∧
    (decode (BitVec.ofNat 16 (0x9000 + 256 * x.val + 16 * y.val)) = .sneReg x y ∧
      ∃ t, exec (.sneReg x y) s = .next t ∧ t.ip = (if s.readV x ≠ s.readV y then s.ip + 4 else s.ip + 2) ∧
        Frame {} s t)

/-! ## Register load and arithmetic-logic instructions -/

/-- The loads: `V[x]` receives the immediate, or `V[y]`; CF and everything else is unchanged. -/
def Obligations.LoadsWriteVx : Prop :=
  ∀ (x y : Reg) (kk : Byte) (s : State),
    (decode (BitVec.ofNat 16 (0x6000 + 256 * x.val + kk.toNat)) = .ldImm x kk ∧
      ∃ t, exec (.ldImm x kk) s = .next t ∧ t.readV x = kk ∧ t.ip = s.ip + 2 ∧ Frame { v := [x] } s t) ∧
    (decode (BitVec.ofNat 16 (0x8000 + 256 * x.val + 16 * y.val)) = .ldReg x y ∧
      ∃ t, exec (.ldReg x y) s = .next t ∧ t.readV x = s.readV y ∧ t.ip = s.ip + 2 ∧ Frame { v := [x] } s t)

/-- ADD Vx, kk: the sum modulo 256, no flag. -/
def Obligations.AddImmediateWrapsSilently : Prop :=
  ∀ (x : Reg) (kk : Byte) (s : State),
    decode (BitVec.ofNat 16 (0x7000 + 256 * x.val + kk.toNat)) = .addImm x kk ∧
    ∃ t, exec (.addImm x kk) s = .next t ∧ (t.readV x).toNat = ((s.readV x).toNat + kk.toNat) % 256 ∧
      t.ip = s.ip + 2 ∧ Frame { v := [x] } s t

/-- OR, AND, XOR: bitwise, bit by bit, into `V[x]`; CF unchanged. -/
def Obligations.BitwiseOperationsLeaveCF : Prop :=
  ∀ (x y : Reg) (s : State),
    (decode (BitVec.ofNat 16 (0x8001 + 256 * x.val + 16 * y.val)) = .orReg x y ∧
      ∃ t, exec (.orReg x y) s = .next t ∧
        (∀ b, (t.readV x).getLsbD b = ((s.readV x).getLsbD b || (s.readV y).getLsbD b)) ∧
        t.ip = s.ip + 2 ∧ Frame { v := [x] } s t) ∧
    (decode (BitVec.ofNat 16 (0x8002 + 256 * x.val + 16 * y.val)) = .andReg x y ∧
      ∃ t, exec (.andReg x y) s = .next t ∧
        (∀ b, (t.readV x).getLsbD b = ((s.readV x).getLsbD b && (s.readV y).getLsbD b)) ∧
        t.ip = s.ip + 2 ∧ Frame { v := [x] } s t) ∧
    (decode (BitVec.ofNat 16 (0x8003 + 256 * x.val + 16 * y.val)) = .xorReg x y ∧
      ∃ t, exec (.xorReg x y) s = .next t ∧
        (∀ b, (t.readV x).getLsbD b = ((s.readV x).getLsbD b != (s.readV y).getLsbD b)) ∧
        t.ip = s.ip + 2 ∧ Frame { v := [x] } s t)

/-- ADD Vx, Vy: the sum modulo 256, and CF is 1 when NO overflow occurs (42_alu.md; polarity: decision D1, conflict C1). -/
def Obligations.AddRegisterFlagMeansNoOverflow : Prop :=
  ∀ (x y : Reg) (s : State),
    decode (BitVec.ofNat 16 (0x8004 + 256 * x.val + 16 * y.val)) = .addReg x y ∧
    ∃ t, exec (.addReg x y) s = .next t ∧
      (t.readV x).toNat = ((s.readV x).toNat + (s.readV y).toNat) % 256 ∧
      t.cf = (if (s.readV x).toNat + (s.readV y).toNat ≤ 255 then 0x01 else 0x00) ∧
      t.ip = s.ip + 2 ∧ Frame { v := [x], cf := true } s t

/-- SUB Vx, Vy: the difference modulo 256, and CF is 1 when a borrow occurs. -/
def Obligations.SubtractFlagMeansBorrow : Prop :=
  ∀ (x y : Reg) (s : State),
    decode (BitVec.ofNat 16 (0x8005 + 256 * x.val + 16 * y.val)) = .subReg x y ∧
    ∃ t, exec (.subReg x y) s = .next t ∧
      ((t.readV x).toNat : Int) = ((s.readV x).toNat - (s.readV y).toNat : Int) % 256 ∧
      t.cf = (if (s.readV y).toNat > (s.readV x).toNat then 0x01 else 0x00) ∧
      t.ip = s.ip + 2 ∧ Frame { v := [x], cf := true } s t

/-- SUBN Vx, Vy: `V[y] - V[x]` modulo 256 into `V[x]`, and CF is 1 when that borrows (the flag: the spec's decision D12). -/
def Obligations.ReverseSubtractFlagMeansBorrow : Prop :=
  ∀ (x y : Reg) (s : State),
    decode (BitVec.ofNat 16 (0x8007 + 256 * x.val + 16 * y.val)) = .subnReg x y ∧
    ∃ t, exec (.subnReg x y) s = .next t ∧
      ((t.readV x).toNat : Int) = ((s.readV y).toNat - (s.readV x).toNat : Int) % 256 ∧
      t.cf = (if (s.readV x).toNat > (s.readV y).toNat then 0x01 else 0x00) ∧
      t.ip = s.ip + 2 ∧ Frame { v := [x], cf := true } s t

/-- SHR and SHL shift `V[x]` in place by 1; CF is the bit shifted out. -/
def Obligations.ShiftsPutTheBitShiftedOutInCF : Prop :=
  ∀ (x y : Reg) (s : State),
    (decode (BitVec.ofNat 16 (0x8006 + 256 * x.val + 16 * y.val)) = .shr x ∧
      ∃ t, exec (.shr x) s = .next t ∧ (t.readV x).toNat = (s.readV x).toNat / 2 ∧
        t.cf.toNat = (s.readV x).toNat % 2 ∧ t.ip = s.ip + 2 ∧ Frame { v := [x], cf := true } s t) ∧
    (decode (BitVec.ofNat 16 (0x800E + 256 * x.val + 16 * y.val)) = .shl x ∧
      ∃ t, exec (.shl x) s = .next t ∧ (t.readV x).toNat = 2 * (s.readV x).toNat % 256 ∧
        t.cf.toNat = (s.readV x).toNat / 128 ∧ t.ip = s.ip + 2 ∧ Frame { v := [x], cf := true } s t)

/-! ## Index-register and memory instructions -/

/-- LD I, nnn: I receives the address. -/
def Obligations.LoadIndexWritesI : Prop :=
  ∀ (nnn : Addr) (s : State),
    decode (BitVec.ofNat 16 (0xA000 + nnn.toNat)) = .ldI nnn ∧
    ∃ t, exec (.ldI nnn) s = .next t ∧ t.idx.toNat = nnn.toNat ∧ t.ip = s.ip + 2 ∧ Frame { idx := true } s t

/-- ADD I, Vx: modulo 65536, no fault and no flag (43_index_memory.md; decision D4). -/
def Obligations.AddIndexWrapsAtSixteenBits : Prop :=
  ∀ (x : Reg) (s : State),
    decode (BitVec.ofNat 16 (0xF01E + 256 * x.val)) = .addI x ∧
    ∃ t, exec (.addI x) s = .next t ∧ t.idx.toNat = (s.idx.toNat + (s.readV x).toNat) % 65536 ∧
      t.ip = s.ip + 2 ∧ Frame { idx := true } s t

/-- LD F, Vx: I is FONT_BASE plus five times the low nibble of `V[x]`, for every admitted FONT_BASE; a font address lies below
0x200 (43_index_memory.md; decision D22; FONT_BASE is held in the state: log entry 7). -/
def Obligations.FontAddressOfTheLowNibble : Prop :=
  ∀ (x : Reg) (s : State),
    decode (BitVec.ofNat 16 (0xF029 + 256 * x.val)) = .ldF x ∧
    ∃ t, exec (.ldF x) s = .next t ∧ t.idx.toNat = s.env.fontBase.val + 5 * ((s.readV x).toNat % 16) ∧
      t.idx.toNat + 5 ≤ 0x200 ∧ t.ip = s.ip + 2 ∧ Frame { idx := true } s t

/-- LD B, Vx: hundreds, tens and ones at I, I + 1, I + 2 and no other byte; out of range, AddressOutOfBounds(I) and no effect
(43_index_memory.md; decisions D20, D21). -/
def Obligations.BcdStoresThreeDigits : Prop :=
  ∀ (x : Reg) (s : State),
    decode (BitVec.ofNat 16 (0xF033 + 256 * x.val)) = .ldB x ∧
    (s.mem.wf = true → s.idx.toNat + 3 ≤ 4096 →
      ∃ t, exec (.ldB x) s = .next t ∧
        (t.readByte s.idx.toNat).toNat = (s.readV x).toNat / 100 ∧
        (t.readByte (s.idx.toNat + 1)).toNat = (s.readV x).toNat / 10 % 10 ∧
        (t.readByte (s.idx.toNat + 2)).toNat = (s.readV x).toNat % 10 ∧
        t.ip = s.ip + 2 ∧ Frame { bytes := (s.idx.toNat, 3) } s t) ∧
    (4096 < s.idx.toNat + 3 → exec (.ldB x) s = .next { s with run := .fatal, fault := ⟨3, s.idx⟩ })

/-- LD [I], Vx: `V[j]` to `I + j` for every `j` up to `x` and no other byte, I unchanged; out of range, AddressOutOfBounds(I)
and no effect (43_index_memory.md; decisions D19, D20). -/
def Obligations.StoreRegistersWritesTheBlock : Prop :=
  ∀ (x : Reg) (s : State),
    decode (BitVec.ofNat 16 (0xF055 + 256 * x.val)) = .storeRegs x ∧
    (s.mem.wf = true → s.idx.toNat + (x.val + 1) ≤ 4096 →
      ∃ t, exec (.storeRegs x) s = .next t ∧
        (∀ j : Reg, j ≤ x → t.readByte (s.idx.toNat + j.val) = s.readV j) ∧
        t.ip = s.ip + 2 ∧ Frame { bytes := (s.idx.toNat, x.val + 1) } s t) ∧
    (4096 < s.idx.toNat + (x.val + 1) →
      exec (.storeRegs x) s = .next { s with run := .fatal, fault := ⟨3, s.idx⟩ })

/-- LD Vx, [I]: `V[j]` from `I + j` for every `j` up to `x`, no other register, memory and I unchanged; out of range,
AddressOutOfBounds(I) and no effect (43_index_memory.md; decisions D19, D20). -/
def Obligations.LoadRegistersReadsTheBlock : Prop :=
  ∀ (x : Reg) (s : State),
    decode (BitVec.ofNat 16 (0xF065 + 256 * x.val)) = .loadRegs x ∧
    (s.idx.toNat + (x.val + 1) ≤ 4096 →
      ∃ t, exec (.loadRegs x) s = .next t ∧
        (∀ j : Reg, j ≤ x → t.readV j = s.readByte (s.idx.toNat + j.val)) ∧
        t.ip = s.ip + 2 ∧ Frame { v := (List.finRange 16).filter (fun j => j ≤ x) } s t) ∧
    (4096 < s.idx.toNat + (x.val + 1) →
      exec (.loadRegs x) s = .next { s with run := .fatal, fault := ⟨3, s.idx⟩ })

/-- Registers stored by LD [I], Vx come back by LD Vx, [I] with the same x and I, whatever else has changed in between but
memory (43_index_memory.md; 95_test_vectors.md Q10; decision D19). -/
def Obligations.StoreThenLoadReturnsTheRegisters : Prop :=
  ∀ (x : Reg) (s : State), s.mem.wf = true → s.idx.toNat + (x.val + 1) ≤ 4096 →
    ∃ t, exec (.storeRegs x) s = .next t ∧
      ∀ u : State, u.mem = t.mem → u.idx = s.idx →
        ∃ w, exec (.loadRegs x) u = .next w ∧ ∀ j : Reg, j ≤ x → w.readV j = s.readV j

/-- A store into the instruction stream, by LD B or LD [I], is seen by the very next fetch, whichever bytes of the next
instruction it falls on, both, one or none (20_memory.md section 4, derived there): each byte of the word fetched next is the one
stored there, if one was, else the one that was there. -/
def Obligations.StoreIsSeenByTheVeryNextFetch : Prop :=
  ∀ (i : Instr) (bytes : List Byte) (s : State), s.mem.wf = true → s.FetchLegal →
    (∃ x, i = .ldB x ∧ bytes.map (fun b => b.toNat) =
      [(s.readV x).toNat / 100, (s.readV x).toNat / 10 % 10, (s.readV x).toNat % 10]) ∨
    (∃ x : Reg, i = .storeRegs x ∧ bytes.length = x.val + 1 ∧ ∀ j : Reg, j ≤ x → bytes[j.val]? = some (s.readV j)) →
    s.idx.toNat + bytes.length ≤ 4096 →
    ∃ t, exec i s = .next t ∧ t.run = s.run ∧ t.ip.toNat = s.ip.toNat + 2 ∧
      t.fetchWord.toNat = (s.byteAfterStore bytes (s.ip.toNat + 2)).toNat * 256 +
        (s.byteAfterStore bytes (s.ip.toNat + 3)).toNat

/-! ## Timer, random, display and key instructions -/

/-- The timer instructions: DT is read into `V[x]`, DT and ST are written from it (44_timers_random_io.md; decision D16). -/
def Obligations.TimerInstructionsMoveBytes : Prop :=
  ∀ (x : Reg) (s : State),
    (decode (BitVec.ofNat 16 (0xF007 + 256 * x.val)) = .ldVxDT x ∧
      ∃ t, exec (.ldVxDT x) s = .next t ∧ t.readV x = s.dt ∧ t.ip = s.ip + 2 ∧ Frame { v := [x] } s t) ∧
    (decode (BitVec.ofNat 16 (0xF015 + 256 * x.val)) = .ldDTVx x ∧
      ∃ t, exec (.ldDTVx x) s = .next t ∧ t.dt = s.readV x ∧ t.ip = s.ip + 2 ∧ Frame { dt := true } s t) ∧
    (decode (BitVec.ofNat 16 (0xF018 + 256 * x.val)) = .ldSTVx x ∧
      ∃ t, exec (.ldSTVx x) s = .next t ∧ t.st = s.readV x ∧ t.ip = s.ip + 2 ∧ Frame { st := true } s t)

/-- RND: a byte of the environment's, any byte, masked by `kk`; where one is lined up, that one (44_timers_random_io.md;
decision D26). The model's choices: the answers lined up and the free ones (log entry 8), the request kept in a list (log entry
13). -/
def Obligations.RandomByteIsMasked : Prop :=
  ∀ (x : Reg) (kk : Byte) (s : State),
    decode (BitVec.ofNat 16 (0xC000 + 256 * x.val + kk.toNat)) = .rnd x kk ∧
    ∃ t r, exec (.rnd x kk) s = .next t ∧ t.readV x = r &&& kk ∧ (∀ r₀, s.env.randoms.head? = some r₀ → r = r₀) ∧
      t.ip = s.ip + 2 ∧
      t.env = { s.env with
        randoms := s.env.randoms.tail, draws := s.env.draws + 1, requests := s.env.requests ++ [.random] } ∧
      Frame { v := [x], env := true } s t

/-- DRW: the `n` bytes at I go to the display with the unreduced coordinates, and CF is its answer, written each time; out of
range, AddressOutOfBounds(I) and no request; `n = 0` reads no memory (44_timers_random_io.md; decisions D20, D23). The model's
choices: the answers lined up and the free ones (log entry 9), the request kept in a list (log entry 13). -/
def Obligations.DrawSendsTheSpriteAndStoresTheAnswer : Prop :=
  ∀ (x y : Reg) (n : Fin 16) (s : State),
    decode (BitVec.ofNat 16 (0xD000 + 256 * x.val + 16 * y.val + n.val)) = .drw x y n ∧
    (n.val = 0 ∨ s.idx.toNat + n.val ≤ 4096 →
      ∃ t sprite c, exec (.drw x y n) s = .next t ∧
        sprite.length = n.val ∧ (∀ j, j < n.val → sprite[j]? = some (s.readByte (s.idx.toNat + j))) ∧
        t.cf = (if c then 0x01 else 0x00) ∧ (∀ c₀, s.env.collisions.head? = some c₀ → c = c₀) ∧
        t.ip = s.ip + 2 ∧
        t.env = { s.env with
          collisions := s.env.collisions.tail, draws := s.env.draws + 1,
          requests := s.env.requests ++ [.displayDraw (s.readV x) (s.readV y) sprite] } ∧
        Frame { cf := true, env := true } s t) ∧
    (n.val ≠ 0 → 4096 < s.idx.toNat + n.val →
      exec (.drw x y n) s = .next { s with run := .fatal, fault := ⟨3, s.idx⟩ })

/-- SKP and SKNP: the full `V[x]` is asked for, and the answer, any answer, decides the skip, one way and the other
(44_timers_random_io.md; decision D24). The model's choices: the answers lined up and the free ones (log entry 10), the request
kept in a list (log entry 13). -/
def Obligations.KeySkipsFollowTheAnswer : Prop :=
  ∀ (x : Reg) (s : State),
    decode (BitVec.ofNat 16 (0xE09E + 256 * x.val)) = .skp x ∧ decode (BitVec.ofNat 16 (0xE0A1 + 256 * x.val)) = .sknp x ∧
    ∃ t u p, exec (.skp x) s = .next t ∧ exec (.sknp x) s = .next u ∧
      (∀ p₀, s.env.presses.head? = some p₀ → p = p₀) ∧
      t.ip = (if p then s.ip + 4 else s.ip + 2) ∧ u.ip = (if p then s.ip + 2 else s.ip + 4) ∧
      t.env = { s.env with
        presses := s.env.presses.tail, draws := s.env.draws + 1,
        requests := s.env.requests ++ [.keyPressed (s.readV x)] } ∧
      u.env = t.env ∧ Frame { env := true } s t ∧ Frame { env := true } s u

/-- LD Vx, K: while the answer is `none` nothing of CORE changes, IP included; a key goes into `V[x]` and IP advances
(44_timers_random_io.md; decision D25). The model's choices: the answers lined up and the free ones (log entry 11), the request
kept in a list (log entry 13). -/
def Obligations.KeyWaitReexecutesUntilAKey : Prop :=
  ∀ (x : Reg) (s : State),
    decode (BitVec.ofNat 16 (0xF00A + 256 * x.val)) = .ldVxK x ∧
    ∃ t k, exec (.ldVxK x) s = .next t ∧ (∀ k₀, s.env.keyWaits.head? = some k₀ → k = k₀) ∧
      t.env = { s.env with
        keyWaits := s.env.keyWaits.tail, draws := s.env.draws + 1, requests := s.env.requests ++ [.keyWait] } ∧
      (k = none → t.ip = s.ip ∧ Frame { env := true } s t) ∧
      (∀ key : Key, k = some key →
        (t.readV x).toNat = key.val ∧ t.ip = s.ip + 2 ∧ Frame { v := [x], env := true } s t)

/-! ## Fatal conditions -/

/-- Who overflows and who underflows: StackOverflow is raised by CALL exactly when SP is 16, StackUnderflow by RET exactly when
SP is 0, each with the instruction's IP, and by no other instruction. -/
def Obligations.OnlyCallOverflowsAndOnlyRetUnderflows : Prop :=
  ∀ (i : Instr) (s t : State), s.run = .running → exec i s = .next t →
    ((t.run = .fatal ∧ t.fault.code = 1) ↔ (∃ nnn, i = .call nnn) ∧ s.sp = 16) ∧
    ((t.run = .fatal ∧ t.fault.code = 2) ↔ i = .ret ∧ s.sp = 0) ∧
    (t.run = .fatal → t.fault.code = 1 ∨ t.fault.code = 2 → t.fault.info = s.ip)

/-- AddressOutOfBounds is raised exactly when an access presented to memory has a byte above 4095: by the fetch, or by LD B,
LD [I], LD Vx, [I] or DRW with bytes, themselves fetched at a legal address; its info is IP for the fetch and I for a data
access (60_exceptions.md section 1; the record: decision D9; the other fetch checks: 20_memory.md section 3, decisions D7, D8). The
model's choice: which step is the core's cycle (log entry 5). -/
def Obligations.OutOfBoundsExactlyWhenAnAccessLeavesMemory : Prop :=
  ∀ s t : State, s.env.moves = [] ∨ s.env.moves.head? = some (.cycle false) → s.run = .running → step s = .next t →
    ((t.run = .fatal ∧ t.fault.code = 3) ↔
      0x0FFE < s.ip.toNat ∨
      (0x0200 ≤ s.ip.toNat ∧ s.ip.toNat ≤ 0x0FFE ∧ s.ip.toNat % 2 = 0 ∧
        ((∃ x, decode s.fetchWord = .ldB x ∧ 4096 < s.idx.toNat + 3) ∨
         (∃ x : Reg, (decode s.fetchWord = .storeRegs x ∨ decode s.fetchWord = .loadRegs x) ∧
            4096 < s.idx.toNat + x.val + 1) ∨
         (∃ (x y : Reg) (n : Fin 16), decode s.fetchWord = .drw x y n ∧ 0 < n.val ∧ 4096 < s.idx.toNat + n.val)))) ∧
    (t.run = .fatal → t.fault.code = 3 → t.fault.info = if 0x0FFE < s.ip.toNat then s.ip else s.idx)

/-- Fatal conditions are precise: in the cycle that raises one, RUN and FAULT are written and nothing else of CORE is; no
request is sent; and the code is one of 1 to 5 (60_exceptions.md sections 1 and 3; decisions D9, D20). The model's choices: what
may change of the environment's side is the list of moves (log entry 5) and the trace (log entry 13). -/
def Obligations.FatalConditionsArePrecise : Prop :=
  ∀ s t : State, s.run = .running → step s = .next t → t.run = .fatal →
    t = { s with run := .fatal, fault := t.fault, env := t.env } ∧
    t.env = { s.env with moves := t.env.moves, trace := t.env.trace } ∧
    1 ≤ t.fault.code.toNat ∧ t.fault.code.toNat ≤ 5

/-! ## The whole machine -/

/-- Every step keeps the machine's invariant: memory in the model's canonical form (log entry 1) and inside 4096 bytes, SP 0 to
16, live stack entries legal return addresses, CF 0 or 1, IP at most 0x10FE, FAULT a record, with a code 1 to 5, exactly in FATAL,
IDLE with reset values. -/
def Obligations.StepKeepsTheInvariant : Prop :=
  ∀ s t : State, s.Inv → step s = .next t → t.Inv

/-- The state after Reset meets the invariant. -/
def Obligations.ResetMeetsTheInvariant : Prop := State.reset.Inv

/-- CF and ST flow into nothing else: states that differ only there step to states that differ only there, and CF is either
written with the same value in both or left alone in both (10_state.md sections 3 and 7; decision D2). What the new ST is, is
left open here: TimerInstructionsMoveBytes, OnlyTheListedInstructionsWriteEachCell and TickCountsBothTimersDown say it. -/
def Obligations.CFAndSTFlowIntoNothingElse : Prop :=
  ∀ (s t : State) (c d : Byte), step s = .next t →
    ∃ c' d', step { s with cf := c, st := d } = .next { t with cf := c', st := d' } ∧
      (c' = t.cf ∨ (c' = c ∧ t.cf = s.cf))

/-- Who writes what, over all instructions (10_state.md sections 1 to 9): a cell that changes was changed by one of the
instructions the spec lists as its writers. -/
def Obligations.OnlyTheListedInstructionsWriteEachCell : Prop :=
  ∀ (i : Instr) (s t : State), exec i s = .next t →
    (t.cf ≠ s.cf → (∃ x y, i = .addReg x y ∨ i = .subReg x y ∨ i = .subnReg x y) ∨ (∃ x, i = .shr x ∨ i = .shl x) ∨
      ∃ x y n, i = .drw x y n) ∧
    (t.idx ≠ s.idx → (∃ nnn, i = .ldI nnn) ∨ ∃ x, i = .addI x ∨ i = .ldF x) ∧
    (t.sp ≠ s.sp → i = .ret ∨ ∃ nnn, i = .call nnn) ∧
    (t.stack ≠ s.stack → ∃ nnn, i = .call nnn) ∧
    (t.dt ≠ s.dt → ∃ x, i = .ldDTVx x) ∧
    (t.st ≠ s.st → ∃ x, i = .ldSTVx x) ∧
    (t.mem ≠ s.mem → ∃ x, i = .ldB x ∨ i = .storeRegs x) ∧
    (t.run ≠ s.run → i = .halt ∨ t.run = .fatal) ∧
    (∀ j : Reg, t.readV j ≠ s.readV j →
      (∃ kk, i = .ldImm j kk ∨ i = .addImm j kk ∨ i = .rnd j kk) ∨
      (∃ y, i = .ldReg j y ∨ i = .orReg j y ∨ i = .andReg j y ∨ i = .xorReg j y ∨ i = .addReg j y ∨ i = .subReg j y ∨
        i = .subnReg j y) ∨
      i = .shr j ∨ i = .shl j ∨ i = .ldVxDT j ∨ i = .ldVxK j ∨ ∃ x, j ≤ x ∧ i = .loadRegs x)

/-- The run state changes only as the spec's table says (10_state.md section 9; decision D28): IDLE is left by Start,
RUNNING by a fetched HALT, a stop, a fatal condition of the fetch or of the instruction fetched, or Reset, a run that is over by
Reset alone. (The moves are the model's: log entries 5, 6.) -/
def Obligations.RunStateChangesOnlyAsTabled : Prop :=
  ∀ s t : State, step s = .next t → t.run ≠ s.run →
    (s.run = .idle → t.run = .running ∧ s.env.moves.head? = some .start) ∧
    (s.run = .running →
      (t.run = .halted ∧ s.AtCycle ∧ s.FetchLegal ∧ decode s.fetchWord = .halt) ∨
      (t.run = .stopped ∧ s.env.moves.head? = some (.cycle true)) ∨
      (t.run = .fatal ∧ s.AtCycle ∧ (¬ s.FetchLegal ∨ s.OwnCondition (decode s.fetchWord))) ∨
      (t.run = .idle ∧ s.env.moves.head? = some .reset)) ∧
    (s.Over → t.run = .idle ∧ s.env.moves.head? = some .reset)

/-- A timer rises only in a cycle of the running core that fetches, at a legal address, the instruction that writes it, and
then to the register's value; ticks and all else never raise one (60_exceptions.md section 5, 70_reset_and_hazards.md section 4;
the moves are the model's: log entries 5, 6). -/
def Obligations.TimersRiseOnlyByAWrite : Prop :=
  ∀ s t : State, step s = .next t →
    (s.dt.toNat < t.dt.toNat →
      s.AtCycle ∧ s.FetchLegal ∧ ∃ x, decode s.fetchWord = .ldDTVx x ∧ t.dt = s.readV x) ∧
    (s.st.toNat < t.st.toNat →
      s.AtCycle ∧ s.FetchLegal ∧ ∃ x, decode s.fetchWord = .ldSTVx x ∧ t.st = s.readV x)

/-- Sequential execution, skips and returns keep IP even (60_exceptions.md section 1): from a legal fetch address, an
instruction that is no JP, CALL or JP V0 leaves an even IP. -/
def Obligations.OnlyJumpsAndCallsMakeIPOdd : Prop :=
  ∀ (i : Instr) (s t : State), s.Inv → 0x200 ≤ s.ip.toNat → s.ip.toNat ≤ 0xFFE → s.ip.toNat % 2 = 0 →
    exec i s = .next t → t.ip.toNat % 2 = 1 → ∃ nnn, i = .jp nnn ∨ i = .call nnn ∨ i = .jpV0 nnn

/-- The environment's side of a step: one move is taken, FONT_BASE stays, and the outputs only grow, the trace by at most one
entry, the requests by at most one (44_timers_random_io.md, 60_exceptions.md sections 6 and 7). The lists are the model's
choice: log entries 5, 7, 13. -/
def Obligations.EachStepTakesOneMoveAndOutputsOnlyGrow : Prop :=
  ∀ s t : State, step s = .next t →
    t.env.fontBase = s.env.fontBase ∧ t.env.moves = s.env.moves.tail ∧
    (t.env.trace = s.env.trace ∨ ∃ e, t.env.trace = s.env.trace ++ [e]) ∧
    (t.env.requests = s.env.requests ∨ ∃ q, t.env.requests = s.env.requests ++ [q])
end

