-- ==== Sys2Proof/Laws/Encoding.lean ====
section
/-! SUPPORT. The arithmetic of instruction words: what each format's encoder gives as a number, what each field of it reads
back, and what the four masks of the opcode map select. -/

namespace Sys2Proof

theorem toNat_encodeA {op : Nat} {nnn : Addr} (h : op < 16) : (encodeA op nnn).toNat = op * 4096 + nnn.toNat := by
  have := nnn.isLt
  simp only [encodeA, BitVec.toNat_ofNat]
  omega

theorem toNat_encodeRI {op : Nat} {x : Reg} {kk : Byte} (h : op < 16) :
    (encodeRI op x kk).toNat = op * 4096 + x.val * 256 + kk.toNat := by
  have := kk.isLt
  have := x.isLt
  simp only [encodeRI, BitVec.toNat_ofNat]
  omega

theorem toNat_encodeRR {op f : Nat} {x y : Reg} (h : op < 16) (hf : f < 16) :
    (encodeRR op x y f).toNat = op * 4096 + x.val * 256 + y.val * 16 + f := by
  have := y.isLt
  have := x.isLt
  simp only [encodeRR, BitVec.toNat_ofNat]
  omega

theorem toNat_encodeR {op sel : Nat} {x : Reg} (h : op < 16) (hs : sel < 256) :
    (encodeR op x sel).toNat = op * 4096 + x.val * 256 + sel := by
  have := x.isLt
  simp only [encodeR, BitVec.toNat_ofNat]
  omega

theorem fieldX_eq {w : Word} {x : Reg} (h : w.toNat / 256 % 16 = x.val) : fieldX w = x := Fin.ext h

theorem fieldY_eq {w : Word} {y : Reg} (h : w.toNat / 16 % 16 = y.val) : fieldY w = y := Fin.ext h

theorem fieldN_eq {w : Word} {n : Fin 16} (h : w.toNat % 16 = n.val) : fieldN w = n :=
  Fin.ext (by simpa [fieldN, bits] using h)

theorem fieldKK_eq {w : Word} {kk : Byte} (h : w.toNat % 256 = kk.toNat) : fieldKK w = kk := by
  apply BitVec.eq_of_toNat_eq
  simp [fieldKK, bits, h]

theorem fieldNNN_eq {w : Word} {nnn : Addr} (h : w.toNat % 4096 = nnn.toNat) : fieldNNN w = nnn := by
  apply BitVec.eq_of_toNat_eq
  simp [fieldNNN, bits, h]

theorem bits_family {w : Word} {f : Nat} (h : w.toNat / 4096 = f) : bits w 12 4 = f := by
  have := w.isLt
  simp only [bits]
  omega

theorem bits_low {w : Word} {f : Nat} (h : w.toNat % 16 = f) : bits w 0 4 = f := by
  simp only [bits]
  omega

theorem bits_lowByte {w : Word} {f : Nat} (h : w.toNat % 256 = f) : bits w 0 8 = f := by
  simp only [bits]
  omega

/-- A word is the bytes it is laid out in. -/
theorem wordOfBytes_split (w : Word) : wordOfBytes (highByte w) (lowByte w) = w := by
  have := w.isLt
  apply BitVec.eq_of_toNat_eq
  simp only [wordOfBytes, highByte, lowByte, bits, BitVec.toNat_ofNat]
  omega

theorem toNat_wordOfBytes (hi lo : Byte) : (wordOfBytes hi lo).toNat = hi.toNat * 256 + lo.toNat := by
  have := hi.isLt
  have := lo.isLt
  simp only [wordOfBytes, BitVec.toNat_ofNat]
  omega

/-- Masking keeps the high nibble: `w & 0xF000`. -/
theorem toNat_and_F000 (w : Word) : (w &&& 0xF000).toNat = w.toNat / 4096 * 4096 := by
  have hw := w.isLt
  have e : w.toNat &&& 0xF000 = (w.toNat >>> 12 &&& 0xF) <<< 12 := by
    apply Nat.eq_of_testBit_eq
    intro i
    simp only [Nat.testBit_and, Nat.testBit_shiftLeft, Nat.testBit_shiftRight]
    by_cases hi : i < 12
    · have : (0xF000 : Nat).testBit i = false := by interval_cases i <;> decide
      simp [this, hi]
    · obtain ⟨j, rfl⟩ : ∃ j, i = 12 + j := ⟨i - 12, by omega⟩
      have : (0xF000 : Nat).testBit (12 + j) = (0xF : Nat).testBit j := by
        rw [show (0xF000 : Nat) = 0xF <<< 12 by decide, Nat.testBit_shiftLeft]
        simp
      simp [this]
  rw [BitVec.toNat_and]
  show w.toNat &&& 0xF000 = _
  rw [e, show (0xF : Nat) = 2 ^ 4 - 1 by decide, Nat.and_two_pow_sub_one_eq_mod, Nat.shiftRight_eq_div_pow,
    Nat.shiftLeft_eq]
  omega

/-- Masking keeps a low part beside the high nibble: `w & (0xF000 | (2^k - 1))`. -/
theorem toNat_and_low (w m : Word) (k : Nat) (hk : k ≤ 12) (hm : m.toNat = 0xF000 ||| (2 ^ k - 1)) :
    (w &&& m).toNat = w.toNat / 4096 * 4096 + w.toNat % 2 ^ k := by
  have h1 := toNat_and_F000 w
  rw [BitVec.toNat_and] at h1 ⊢
  rw [hm, Nat.and_or_distrib_left, Nat.and_two_pow_sub_one_eq_mod]
  have h1' : w.toNat &&& 0xF000 = w.toNat / 4096 * 4096 := h1
  rw [h1']
  have hlt : w.toNat % 2 ^ k < 2 ^ 12 :=
    Nat.lt_of_lt_of_le (Nat.mod_lt _ (Nat.two_pow_pos k)) (Nat.pow_le_pow_right (by decide) hk)
  rw [show w.toNat / 4096 * 4096 = 2 ^ 12 * (w.toNat / 4096) by omega]
  exact (Nat.two_pow_add_eq_or_of_lt hlt _).symm

/-- `w & 0xF000 == match` as arithmetic. -/
theorem and_F000_eq_iff (w p : Word) : w &&& 0xF000 = p ↔ w.toNat / 4096 * 4096 = p.toNat := by
  rw [← BitVec.toNat_inj, toNat_and_F000]

/-- `w & 0xF00F == match` as arithmetic. -/
theorem and_F00F_eq_iff (w p : Word) : w &&& 0xF00F = p ↔ w.toNat / 4096 * 4096 + w.toNat % 16 = p.toNat := by
  rw [← BitVec.toNat_inj, toNat_and_low w 0xF00F 4 (by decide) (by decide)]
  exact Iff.rfl

/-- `w & 0xF0FF == match` as arithmetic. -/
theorem and_F0FF_eq_iff (w p : Word) : w &&& 0xF0FF = p ↔ w.toNat / 4096 * 4096 + w.toNat % 256 = p.toNat := by
  rw [← BitVec.toNat_inj, toNat_and_low w 0xF0FF 8 (by decide) (by decide)]
  exact Iff.rfl

/-- `w & 0xFFFF == match` as arithmetic. -/
theorem and_FFFF_eq_iff (w p : Word) : w &&& 0xFFFF = p ↔ w.toNat = p.toNat := by
  rw [show (0xFFFF : Word) = BitVec.allOnes 16 by decide, BitVec.and_allOnes, BitVec.toNat_inj]

end Sys2Proof
end

