-- ==== Sys2Proof/Laws/Memory.lean ====
section
/-! SUPPORT. The laws of memory: a read after a write, what a write leaves alone, and that every memory operation keeps the
canonical form. -/

namespace Sys2Proof.Machine

@[simp] theorem Memory.read_nil (a : Nat) : Memory.read [] a = 0x00 := rfl

theorem Memory.read_cons (k : Nat) (c : Byte) (m : Memory) (a : Nat) :
    Memory.read ((k, c) :: m) a = if a = k then c else Memory.read m a := rfl

@[simp] theorem Memory.wfFrom_nil (lo : Nat) : Memory.wfFrom lo [] = true := rfl

theorem Memory.wfFrom_cons {lo k : Nat} {c : Byte} {m : Memory} :
    Memory.wfFrom lo ((k, c) :: m) = true ↔ lo ≤ k ∧ k < 4096 ∧ c ≠ 0x00 ∧ Memory.wfFrom (k + 1) m = true := by
  simp [Memory.wfFrom, Memory.unlisted, and_assoc]

theorem Memory.wfFrom_mono {lo lo' : Nat} {m : Memory} (hle : lo' ≤ lo) (h : Memory.wfFrom lo m = true) :
    Memory.wfFrom lo' m = true := by
  cases m with
  | nil => rfl
  | cons p m =>
    obtain ⟨h1, h2⟩ := Memory.wfFrom_cons.mp h
    exact Memory.wfFrom_cons.mpr ⟨by omega, h2⟩

/-- Below the first listed address everything reads as unlisted. -/
theorem Memory.read_below {lo a : Nat} {m : Memory} (h : Memory.wfFrom lo m = true) (ha : a < lo) : m.read a = 0x00 := by
  induction m generalizing lo with
  | nil => rfl
  | cons p m ih =>
    obtain ⟨h1, -, -, h4⟩ := Memory.wfFrom_cons.mp h
    rw [Memory.read_cons, if_neg (by omega)]
    exact ih h4 (by omega)

/-- A read at another address sees the memory before the write, whatever its form. -/
theorem Memory.read_write_ne {m : Memory} {a a' : Nat} (b : Byte) (h : a' ≠ a) : (m.write a b).read a' = m.read a' := by
  induction m with
  | nil => by_cases hb : b = Memory.unlisted <;> simp [Memory.write, hb, Memory.read_cons, h]
  | cons p m ih =>
    obtain ⟨k, c⟩ := p
    simp only [Memory.write]
    split
    · split <;> simp [Memory.read_cons, h]
    · split
      · next hk => subst hk; split <;> simp [Memory.read_cons, h]
      · simp [Memory.read_cons, ih]

/-- A read at the same address sees the byte written. -/
theorem Memory.read_write_same {m : Memory} {lo a : Nat} (b : Byte) (h : Memory.wfFrom lo m = true) :
    (m.write a b).read a = b := by
  induction m generalizing lo with
  | nil =>
    simp only [Memory.write]
    split
    · next hb => rw [hb]; rfl
    · simp [Memory.read_cons]
  | cons p m ih =>
    obtain ⟨k, c⟩ := p
    obtain ⟨-, -, -, h4⟩ := Memory.wfFrom_cons.mp h
    simp only [Memory.write]
    split
    · next hk =>
      split
      · next hb =>
        rw [Memory.read_cons, if_neg (by omega), hb]
        exact Memory.read_below h4 (by omega)
      · simp [Memory.read_cons]
    · split
      · next hk =>
        split
        · next hb => rw [hb]; exact Memory.read_below h4 (by omega)
        · simp [Memory.read_cons]
      · next hk => rw [Memory.read_cons, if_neg hk]; exact ih h4

theorem Memory.wfFrom_write {m : Memory} {lo a : Nat} (b : Byte) (h : Memory.wfFrom lo m = true) (hlo : lo ≤ a)
    (ha : a < 4096) : Memory.wfFrom lo (m.write a b) = true := by
  induction m generalizing lo with
  | nil =>
    by_cases hb : b = Memory.unlisted
    · simp [Memory.write, hb]
    · simp only [Memory.write, hb, if_false]
      exact Memory.wfFrom_cons.mpr ⟨hlo, ha, hb, rfl⟩
  | cons p m ih =>
    obtain ⟨k, c⟩ := p
    obtain ⟨h1, h2, h3, h4⟩ := Memory.wfFrom_cons.mp h
    simp only [Memory.write]
    split
    · next hk =>
      split
      · exact h
      · next hb => exact Memory.wfFrom_cons.mpr ⟨hlo, ha, hb, Memory.wfFrom_cons.mpr ⟨by omega, h2, h3, h4⟩⟩
    · split
      · next hk =>
        split
        · exact Memory.wfFrom_mono (by omega) h4
        · next hb => exact Memory.wfFrom_cons.mpr ⟨hlo, ha, hb, hk ▸ h4⟩
      · exact Memory.wfFrom_cons.mpr ⟨h1, h2, h3, ih h4 (by omega)⟩

/-- A write at an address of the machine keeps the canonical form. -/
theorem Memory.wf_write {m : Memory} {a : Nat} (b : Byte) (h : m.wf = true) (ha : a < 4096) : (m.write a b).wf = true :=
  Memory.wfFrom_write b h (Nat.zero_le a) ha

theorem Memory.wf_writeList {m : Memory} {a : Nat} {bs : List Byte} (h : m.wf = true) (ha : a + bs.length ≤ 4096) :
    (m.writeList a bs).wf = true := by
  induction bs generalizing m a with
  | nil => exact h
  | cons b bs ih =>
    simp only [List.length_cons] at ha
    exact ih (Memory.wf_write b h (by omega)) (by omega)

/-- A block write leaves every byte outside the block alone. -/
theorem Memory.read_writeList_outside {m : Memory} {a a' : Nat} {bs : List Byte} (h : a' < a ∨ a + bs.length ≤ a') :
    (m.writeList a bs).read a' = m.read a' := by
  induction bs generalizing m a with
  | nil => rfl
  | cons b bs ih =>
    simp only [List.length_cons] at h
    show (Memory.writeList (m.write a b) (a + 1) bs).read a' = _
    rw [ih (by omega), Memory.read_write_ne b (by omega)]

/-- A block write puts its `j`-th byte at the `j`-th address. -/
theorem Memory.read_writeList_inside {m : Memory} {a j : Nat} {bs : List Byte} (h : m.wf = true)
    (ha : a + bs.length ≤ 4096) (hj : j < bs.length) : (m.writeList a bs).read (a + j) = bs[j] := by
  induction bs generalizing m a j with
  | nil => simp at hj
  | cons b bs ih =>
    simp only [List.length_cons] at ha hj
    have hw : (m.write a b).wf = true := Memory.wf_write b h (by omega)
    show (Memory.writeList (m.write a b) (a + 1) bs).read (a + j) = _
    cases j with
    | zero =>
      rw [Memory.read_writeList_outside (.inl (by omega))]
      exact Memory.read_write_same b h
    | succ j =>
      have := ih hw (show a + 1 + bs.length ≤ 4096 by omega) (show j < bs.length by omega)
      rw [show a + (j + 1) = a + 1 + j by omega]
      simpa using this

/-- Every byte after a block write: the one stored there, if one was, else the one that was there. -/
theorem Memory.read_writeList {m : Memory} {a a' : Nat} {bs : List Byte} (h : m.wf = true) (ha : a + bs.length ≤ 4096) :
    (m.writeList a bs).read a' = if a ≤ a' then (bs[a' - a]?).getD (m.read a') else m.read a' := by
  split
  · obtain ⟨j, rfl⟩ : ∃ j, a' = a + j := ⟨a' - a, by omega⟩
    by_cases hj : j < bs.length
    · rw [Memory.read_writeList_inside h ha hj]; simp [hj]
    · rw [Memory.read_writeList_outside (.inr (by omega))]; simp [Nat.le_of_not_lt hj]
  · exact Memory.read_writeList_outside (.inl (by omega))

@[simp] theorem Memory.length_readList (m : Memory) (a n : Nat) : (m.readList a n).length = n := by
  induction n generalizing a with
  | zero => rfl
  | succ n ih => simp [Memory.readList, ih]

theorem Memory.getElem_readList (m : Memory) (a n j : Nat) (hj : j < n) : (m.readList a n)[j]? = some (m.read (a + j)) := by
  induction n generalizing a j with
  | zero => omega
  | succ n ih =>
    cases j with
    | zero => simp [Memory.readList]
    | succ j =>
      simp only [Memory.readList, List.getElem?_cons_succ]
      rw [ih (a + 1) j (by omega), show a + 1 + j = a + (j + 1) by omega]

/-- Two canonical memories that read the same everywhere are equal: equal memories are equal data. -/
theorem Memory.ext_read {m m' : Memory} {lo : Nat} (h : Memory.wfFrom lo m = true) (h' : Memory.wfFrom lo m' = true)
    (he : ∀ a, m.read a = m'.read a) : m = m' := by
  induction m generalizing lo m' with
  | nil =>
    cases m' with
    | nil => rfl
    | cons p m' =>
      obtain ⟨k, c⟩ := p
      have := he k
      simp only [Memory.read_nil, Memory.read_cons, if_true] at this
      exact absurd this.symm (Memory.wfFrom_cons.mp h').2.2.1
  | cons p m ih =>
    obtain ⟨k, c⟩ := p
    obtain ⟨h1, h2, h3, h4⟩ := Memory.wfFrom_cons.mp h
    cases m' with
    | nil =>
      have := he k
      simp only [Memory.read_nil, Memory.read_cons, if_true] at this
      exact absurd this h3
    | cons p' m' =>
      obtain ⟨k', c'⟩ := p'
      obtain ⟨g1, g2, g3, g4⟩ := Memory.wfFrom_cons.mp h'
      have hk : k = k' := by
        have a1 := he k
        have a2 := he k'
        simp only [Memory.read_cons, if_true] at a1 a2
        by_contra hne
        rcases Nat.lt_or_gt_of_ne hne with hlt | hlt
        · rw [if_neg hne, Memory.read_below g4 (by omega)] at a1
          exact h3 a1
        · rw [if_neg (Ne.symm hne), Memory.read_below h4 (by omega)] at a2
          exact g3 a2.symm
      subst hk
      have hc : c = c' := by simpa [Memory.read_cons] using he k
      subst hc
      congr 1
      refine ih h4 g4 fun a => ?_
      by_cases ha : a = k
      · subst ha; rw [Memory.read_below h4 (by omega), Memory.read_below g4 (by omega)]
      · simpa [Memory.read_cons, ha] using he a

end Sys2Proof.Machine
end

