-- ==== Sys2Proof/Laws/State.lean ====
section
/-! SUPPORT. What each update of State does to each field, and to the reads of one register, slot or byte: one lemma
each, true by definition, so that no proof unfolds a record update. -/

namespace Sys2Proof.Machine

/-! ## `setV` -/

@[simp] theorem setV_v (x : Reg) (b : Byte) (s : State) : (s.setV x b).v = s.v.set x.val b x.isLt := rfl
@[simp] theorem setV_cf (x : Reg) (b : Byte) (s : State) : (s.setV x b).cf = s.cf := rfl
@[simp] theorem setV_idx (x : Reg) (b : Byte) (s : State) : (s.setV x b).idx = s.idx := rfl
@[simp] theorem setV_ip (x : Reg) (b : Byte) (s : State) : (s.setV x b).ip = s.ip := rfl
@[simp] theorem setV_sp (x : Reg) (b : Byte) (s : State) : (s.setV x b).sp = s.sp := rfl
@[simp] theorem setV_stack (x : Reg) (b : Byte) (s : State) : (s.setV x b).stack = s.stack := rfl
@[simp] theorem setV_dt (x : Reg) (b : Byte) (s : State) : (s.setV x b).dt = s.dt := rfl
@[simp] theorem setV_st (x : Reg) (b : Byte) (s : State) : (s.setV x b).st = s.st := rfl
@[simp] theorem setV_mem (x : Reg) (b : Byte) (s : State) : (s.setV x b).mem = s.mem := rfl
@[simp] theorem setV_run (x : Reg) (b : Byte) (s : State) : (s.setV x b).run = s.run := rfl
@[simp] theorem setV_fault (x : Reg) (b : Byte) (s : State) : (s.setV x b).fault = s.fault := rfl
@[simp] theorem setV_env (x : Reg) (b : Byte) (s : State) : (s.setV x b).env = s.env := rfl
@[simp] theorem setV_readSlot (x : Reg) (b : Byte) (s : State) (slot : Fin 16) : (s.setV x b).readSlot slot = s.readSlot slot := rfl
@[simp] theorem setV_readByte (x : Reg) (b : Byte) (s : State) (addr : Nat) : (s.setV x b).readByte addr = s.readByte addr := rfl

/-! ## `setVBlock` -/

@[simp] theorem setVBlock_v (bs : List Byte) (s : State) : (s.setVBlock bs).v = Vector.ofFn fun j => (bs[j.val]?).getD (s.readV j) := rfl
@[simp] theorem setVBlock_cf (bs : List Byte) (s : State) : (s.setVBlock bs).cf = s.cf := rfl
@[simp] theorem setVBlock_idx (bs : List Byte) (s : State) : (s.setVBlock bs).idx = s.idx := rfl
@[simp] theorem setVBlock_ip (bs : List Byte) (s : State) : (s.setVBlock bs).ip = s.ip := rfl
@[simp] theorem setVBlock_sp (bs : List Byte) (s : State) : (s.setVBlock bs).sp = s.sp := rfl
@[simp] theorem setVBlock_stack (bs : List Byte) (s : State) : (s.setVBlock bs).stack = s.stack := rfl
@[simp] theorem setVBlock_dt (bs : List Byte) (s : State) : (s.setVBlock bs).dt = s.dt := rfl
@[simp] theorem setVBlock_st (bs : List Byte) (s : State) : (s.setVBlock bs).st = s.st := rfl
@[simp] theorem setVBlock_mem (bs : List Byte) (s : State) : (s.setVBlock bs).mem = s.mem := rfl
@[simp] theorem setVBlock_run (bs : List Byte) (s : State) : (s.setVBlock bs).run = s.run := rfl
@[simp] theorem setVBlock_fault (bs : List Byte) (s : State) : (s.setVBlock bs).fault = s.fault := rfl
@[simp] theorem setVBlock_env (bs : List Byte) (s : State) : (s.setVBlock bs).env = s.env := rfl
@[simp] theorem setVBlock_readSlot (bs : List Byte) (s : State) (slot : Fin 16) : (s.setVBlock bs).readSlot slot = s.readSlot slot := rfl
@[simp] theorem setVBlock_readByte (bs : List Byte) (s : State) (addr : Nat) : (s.setVBlock bs).readByte addr = s.readByte addr := rfl

/-! ## `setCF` -/

@[simp] theorem setCF_v (b : Byte) (s : State) : (s.setCF b).v = s.v := rfl
@[simp] theorem setCF_cf (b : Byte) (s : State) : (s.setCF b).cf = b := rfl
@[simp] theorem setCF_idx (b : Byte) (s : State) : (s.setCF b).idx = s.idx := rfl
@[simp] theorem setCF_ip (b : Byte) (s : State) : (s.setCF b).ip = s.ip := rfl
@[simp] theorem setCF_sp (b : Byte) (s : State) : (s.setCF b).sp = s.sp := rfl
@[simp] theorem setCF_stack (b : Byte) (s : State) : (s.setCF b).stack = s.stack := rfl
@[simp] theorem setCF_dt (b : Byte) (s : State) : (s.setCF b).dt = s.dt := rfl
@[simp] theorem setCF_st (b : Byte) (s : State) : (s.setCF b).st = s.st := rfl
@[simp] theorem setCF_mem (b : Byte) (s : State) : (s.setCF b).mem = s.mem := rfl
@[simp] theorem setCF_run (b : Byte) (s : State) : (s.setCF b).run = s.run := rfl
@[simp] theorem setCF_fault (b : Byte) (s : State) : (s.setCF b).fault = s.fault := rfl
@[simp] theorem setCF_env (b : Byte) (s : State) : (s.setCF b).env = s.env := rfl
@[simp] theorem setCF_readV (b : Byte) (s : State) (j : Reg) : (s.setCF b).readV j = s.readV j := rfl
@[simp] theorem setCF_readSlot (b : Byte) (s : State) (slot : Fin 16) : (s.setCF b).readSlot slot = s.readSlot slot := rfl
@[simp] theorem setCF_readByte (b : Byte) (s : State) (addr : Nat) : (s.setCF b).readByte addr = s.readByte addr := rfl

/-! ## `setI` -/

@[simp] theorem setI_v (a : Word) (s : State) : (s.setI a).v = s.v := rfl
@[simp] theorem setI_cf (a : Word) (s : State) : (s.setI a).cf = s.cf := rfl
@[simp] theorem setI_idx (a : Word) (s : State) : (s.setI a).idx = a := rfl
@[simp] theorem setI_ip (a : Word) (s : State) : (s.setI a).ip = s.ip := rfl
@[simp] theorem setI_sp (a : Word) (s : State) : (s.setI a).sp = s.sp := rfl
@[simp] theorem setI_stack (a : Word) (s : State) : (s.setI a).stack = s.stack := rfl
@[simp] theorem setI_dt (a : Word) (s : State) : (s.setI a).dt = s.dt := rfl
@[simp] theorem setI_st (a : Word) (s : State) : (s.setI a).st = s.st := rfl
@[simp] theorem setI_mem (a : Word) (s : State) : (s.setI a).mem = s.mem := rfl
@[simp] theorem setI_run (a : Word) (s : State) : (s.setI a).run = s.run := rfl
@[simp] theorem setI_fault (a : Word) (s : State) : (s.setI a).fault = s.fault := rfl
@[simp] theorem setI_env (a : Word) (s : State) : (s.setI a).env = s.env := rfl
@[simp] theorem setI_readV (a : Word) (s : State) (j : Reg) : (s.setI a).readV j = s.readV j := rfl
@[simp] theorem setI_readSlot (a : Word) (s : State) (slot : Fin 16) : (s.setI a).readSlot slot = s.readSlot slot := rfl
@[simp] theorem setI_readByte (a : Word) (s : State) (addr : Nat) : (s.setI a).readByte addr = s.readByte addr := rfl

/-! ## `setDT` -/

@[simp] theorem setDT_v (b : Byte) (s : State) : (s.setDT b).v = s.v := rfl
@[simp] theorem setDT_cf (b : Byte) (s : State) : (s.setDT b).cf = s.cf := rfl
@[simp] theorem setDT_idx (b : Byte) (s : State) : (s.setDT b).idx = s.idx := rfl
@[simp] theorem setDT_ip (b : Byte) (s : State) : (s.setDT b).ip = s.ip := rfl
@[simp] theorem setDT_sp (b : Byte) (s : State) : (s.setDT b).sp = s.sp := rfl
@[simp] theorem setDT_stack (b : Byte) (s : State) : (s.setDT b).stack = s.stack := rfl
@[simp] theorem setDT_dt (b : Byte) (s : State) : (s.setDT b).dt = b := rfl
@[simp] theorem setDT_st (b : Byte) (s : State) : (s.setDT b).st = s.st := rfl
@[simp] theorem setDT_mem (b : Byte) (s : State) : (s.setDT b).mem = s.mem := rfl
@[simp] theorem setDT_run (b : Byte) (s : State) : (s.setDT b).run = s.run := rfl
@[simp] theorem setDT_fault (b : Byte) (s : State) : (s.setDT b).fault = s.fault := rfl
@[simp] theorem setDT_env (b : Byte) (s : State) : (s.setDT b).env = s.env := rfl
@[simp] theorem setDT_readV (b : Byte) (s : State) (j : Reg) : (s.setDT b).readV j = s.readV j := rfl
@[simp] theorem setDT_readSlot (b : Byte) (s : State) (slot : Fin 16) : (s.setDT b).readSlot slot = s.readSlot slot := rfl
@[simp] theorem setDT_readByte (b : Byte) (s : State) (addr : Nat) : (s.setDT b).readByte addr = s.readByte addr := rfl

/-! ## `setST` -/

@[simp] theorem setST_v (b : Byte) (s : State) : (s.setST b).v = s.v := rfl
@[simp] theorem setST_cf (b : Byte) (s : State) : (s.setST b).cf = s.cf := rfl
@[simp] theorem setST_idx (b : Byte) (s : State) : (s.setST b).idx = s.idx := rfl
@[simp] theorem setST_ip (b : Byte) (s : State) : (s.setST b).ip = s.ip := rfl
@[simp] theorem setST_sp (b : Byte) (s : State) : (s.setST b).sp = s.sp := rfl
@[simp] theorem setST_stack (b : Byte) (s : State) : (s.setST b).stack = s.stack := rfl
@[simp] theorem setST_dt (b : Byte) (s : State) : (s.setST b).dt = s.dt := rfl
@[simp] theorem setST_st (b : Byte) (s : State) : (s.setST b).st = b := rfl
@[simp] theorem setST_mem (b : Byte) (s : State) : (s.setST b).mem = s.mem := rfl
@[simp] theorem setST_run (b : Byte) (s : State) : (s.setST b).run = s.run := rfl
@[simp] theorem setST_fault (b : Byte) (s : State) : (s.setST b).fault = s.fault := rfl
@[simp] theorem setST_env (b : Byte) (s : State) : (s.setST b).env = s.env := rfl
@[simp] theorem setST_readV (b : Byte) (s : State) (j : Reg) : (s.setST b).readV j = s.readV j := rfl
@[simp] theorem setST_readSlot (b : Byte) (s : State) (slot : Fin 16) : (s.setST b).readSlot slot = s.readSlot slot := rfl
@[simp] theorem setST_readByte (b : Byte) (s : State) (addr : Nat) : (s.setST b).readByte addr = s.readByte addr := rfl

/-! ## `jump` -/

@[simp] theorem jump_v (a : Word) (s : State) : (s.jump a).v = s.v := rfl
@[simp] theorem jump_cf (a : Word) (s : State) : (s.jump a).cf = s.cf := rfl
@[simp] theorem jump_idx (a : Word) (s : State) : (s.jump a).idx = s.idx := rfl
@[simp] theorem jump_ip (a : Word) (s : State) : (s.jump a).ip = a := rfl
@[simp] theorem jump_sp (a : Word) (s : State) : (s.jump a).sp = s.sp := rfl
@[simp] theorem jump_stack (a : Word) (s : State) : (s.jump a).stack = s.stack := rfl
@[simp] theorem jump_dt (a : Word) (s : State) : (s.jump a).dt = s.dt := rfl
@[simp] theorem jump_st (a : Word) (s : State) : (s.jump a).st = s.st := rfl
@[simp] theorem jump_mem (a : Word) (s : State) : (s.jump a).mem = s.mem := rfl
@[simp] theorem jump_run (a : Word) (s : State) : (s.jump a).run = s.run := rfl
@[simp] theorem jump_fault (a : Word) (s : State) : (s.jump a).fault = s.fault := rfl
@[simp] theorem jump_env (a : Word) (s : State) : (s.jump a).env = s.env := rfl
@[simp] theorem jump_readV (a : Word) (s : State) (j : Reg) : (s.jump a).readV j = s.readV j := rfl
@[simp] theorem jump_readSlot (a : Word) (s : State) (slot : Fin 16) : (s.jump a).readSlot slot = s.readSlot slot := rfl
@[simp] theorem jump_readByte (a : Word) (s : State) (addr : Nat) : (s.jump a).readByte addr = s.readByte addr := rfl

/-! ## `advance` -/

@[simp] theorem advance_v (s : State) : (s.advance).v = s.v := rfl
@[simp] theorem advance_cf (s : State) : (s.advance).cf = s.cf := rfl
@[simp] theorem advance_idx (s : State) : (s.advance).idx = s.idx := rfl
@[simp] theorem advance_ip (s : State) : (s.advance).ip = s.ip + 2 := rfl
@[simp] theorem advance_sp (s : State) : (s.advance).sp = s.sp := rfl
@[simp] theorem advance_stack (s : State) : (s.advance).stack = s.stack := rfl
@[simp] theorem advance_dt (s : State) : (s.advance).dt = s.dt := rfl
@[simp] theorem advance_st (s : State) : (s.advance).st = s.st := rfl
@[simp] theorem advance_mem (s : State) : (s.advance).mem = s.mem := rfl
@[simp] theorem advance_run (s : State) : (s.advance).run = s.run := rfl
@[simp] theorem advance_fault (s : State) : (s.advance).fault = s.fault := rfl
@[simp] theorem advance_env (s : State) : (s.advance).env = s.env := rfl
@[simp] theorem advance_readV (s : State) (j : Reg) : (s.advance).readV j = s.readV j := rfl
@[simp] theorem advance_readSlot (s : State) (slot : Fin 16) : (s.advance).readSlot slot = s.readSlot slot := rfl
@[simp] theorem advance_readByte (s : State) (addr : Nat) : (s.advance).readByte addr = s.readByte addr := rfl

/-! ## `skipIf` -/

@[simp] theorem skipIf_v (c : Bool) (s : State) : (s.skipIf c).v = s.v := rfl
@[simp] theorem skipIf_cf (c : Bool) (s : State) : (s.skipIf c).cf = s.cf := rfl
@[simp] theorem skipIf_idx (c : Bool) (s : State) : (s.skipIf c).idx = s.idx := rfl
@[simp] theorem skipIf_ip (c : Bool) (s : State) : (s.skipIf c).ip = if c then s.ip + 4 else s.ip + 2 := rfl
@[simp] theorem skipIf_sp (c : Bool) (s : State) : (s.skipIf c).sp = s.sp := rfl
@[simp] theorem skipIf_stack (c : Bool) (s : State) : (s.skipIf c).stack = s.stack := rfl
@[simp] theorem skipIf_dt (c : Bool) (s : State) : (s.skipIf c).dt = s.dt := rfl
@[simp] theorem skipIf_st (c : Bool) (s : State) : (s.skipIf c).st = s.st := rfl
@[simp] theorem skipIf_mem (c : Bool) (s : State) : (s.skipIf c).mem = s.mem := rfl
@[simp] theorem skipIf_run (c : Bool) (s : State) : (s.skipIf c).run = s.run := rfl
@[simp] theorem skipIf_fault (c : Bool) (s : State) : (s.skipIf c).fault = s.fault := rfl
@[simp] theorem skipIf_env (c : Bool) (s : State) : (s.skipIf c).env = s.env := rfl
@[simp] theorem skipIf_readV (c : Bool) (s : State) (j : Reg) : (s.skipIf c).readV j = s.readV j := rfl
@[simp] theorem skipIf_readSlot (c : Bool) (s : State) (slot : Fin 16) : (s.skipIf c).readSlot slot = s.readSlot slot := rfl
@[simp] theorem skipIf_readByte (c : Bool) (s : State) (addr : Nat) : (s.skipIf c).readByte addr = s.readByte addr := rfl

/-! ## `raise` -/

@[simp] theorem raise_v (c : Condition) (info : Word) (s : State) : (raise c info s).v = s.v := rfl
@[simp] theorem raise_cf (c : Condition) (info : Word) (s : State) : (raise c info s).cf = s.cf := rfl
@[simp] theorem raise_idx (c : Condition) (info : Word) (s : State) : (raise c info s).idx = s.idx := rfl
@[simp] theorem raise_ip (c : Condition) (info : Word) (s : State) : (raise c info s).ip = s.ip := rfl
@[simp] theorem raise_sp (c : Condition) (info : Word) (s : State) : (raise c info s).sp = s.sp := rfl
@[simp] theorem raise_stack (c : Condition) (info : Word) (s : State) : (raise c info s).stack = s.stack := rfl
@[simp] theorem raise_dt (c : Condition) (info : Word) (s : State) : (raise c info s).dt = s.dt := rfl
@[simp] theorem raise_st (c : Condition) (info : Word) (s : State) : (raise c info s).st = s.st := rfl
@[simp] theorem raise_mem (c : Condition) (info : Word) (s : State) : (raise c info s).mem = s.mem := rfl
@[simp] theorem raise_run (c : Condition) (info : Word) (s : State) : (raise c info s).run = .fatal := rfl
@[simp] theorem raise_fault (c : Condition) (info : Word) (s : State) : (raise c info s).fault = ⟨c.code, info⟩ := rfl
@[simp] theorem raise_env (c : Condition) (info : Word) (s : State) : (raise c info s).env = s.env := rfl
@[simp] theorem raise_readV (c : Condition) (info : Word) (s : State) (j : Reg) : (raise c info s).readV j = s.readV j := rfl
@[simp] theorem raise_readSlot (c : Condition) (info : Word) (s : State) (slot : Fin 16) : (raise c info s).readSlot slot = s.readSlot slot := rfl
@[simp] theorem raise_readByte (c : Condition) (info : Word) (s : State) (addr : Nat) : (raise c info s).readByte addr = s.readByte addr := rfl

/-! ## `writeResult` -/

@[simp] theorem writeResult_v (x : Reg) (r : Byte) (s : State) : (s.writeResult x r).v = s.v.set x.val r x.isLt := rfl
@[simp] theorem writeResult_cf (x : Reg) (r : Byte) (s : State) : (s.writeResult x r).cf = s.cf := rfl
@[simp] theorem writeResult_idx (x : Reg) (r : Byte) (s : State) : (s.writeResult x r).idx = s.idx := rfl
@[simp] theorem writeResult_ip (x : Reg) (r : Byte) (s : State) : (s.writeResult x r).ip = s.ip + 2 := rfl
@[simp] theorem writeResult_sp (x : Reg) (r : Byte) (s : State) : (s.writeResult x r).sp = s.sp := rfl
@[simp] theorem writeResult_stack (x : Reg) (r : Byte) (s : State) : (s.writeResult x r).stack = s.stack := rfl
@[simp] theorem writeResult_dt (x : Reg) (r : Byte) (s : State) : (s.writeResult x r).dt = s.dt := rfl
@[simp] theorem writeResult_st (x : Reg) (r : Byte) (s : State) : (s.writeResult x r).st = s.st := rfl
@[simp] theorem writeResult_mem (x : Reg) (r : Byte) (s : State) : (s.writeResult x r).mem = s.mem := rfl
@[simp] theorem writeResult_run (x : Reg) (r : Byte) (s : State) : (s.writeResult x r).run = s.run := rfl
@[simp] theorem writeResult_fault (x : Reg) (r : Byte) (s : State) : (s.writeResult x r).fault = s.fault := rfl
@[simp] theorem writeResult_env (x : Reg) (r : Byte) (s : State) : (s.writeResult x r).env = s.env := rfl
@[simp] theorem writeResult_readSlot (x : Reg) (r : Byte) (s : State) (slot : Fin 16) : (s.writeResult x r).readSlot slot = s.readSlot slot := rfl
@[simp] theorem writeResult_readByte (x : Reg) (r : Byte) (s : State) (addr : Nat) : (s.writeResult x r).readByte addr = s.readByte addr := rfl

/-! ## `writeResultFlag` -/

@[simp] theorem writeResultFlag_v (x : Reg) (r f : Byte) (s : State) : (s.writeResultFlag x r f).v = s.v.set x.val r x.isLt := rfl
@[simp] theorem writeResultFlag_cf (x : Reg) (r f : Byte) (s : State) : (s.writeResultFlag x r f).cf = f := rfl
@[simp] theorem writeResultFlag_idx (x : Reg) (r f : Byte) (s : State) : (s.writeResultFlag x r f).idx = s.idx := rfl
@[simp] theorem writeResultFlag_ip (x : Reg) (r f : Byte) (s : State) : (s.writeResultFlag x r f).ip = s.ip + 2 := rfl
@[simp] theorem writeResultFlag_sp (x : Reg) (r f : Byte) (s : State) : (s.writeResultFlag x r f).sp = s.sp := rfl
@[simp] theorem writeResultFlag_stack (x : Reg) (r f : Byte) (s : State) : (s.writeResultFlag x r f).stack = s.stack := rfl
@[simp] theorem writeResultFlag_dt (x : Reg) (r f : Byte) (s : State) : (s.writeResultFlag x r f).dt = s.dt := rfl
@[simp] theorem writeResultFlag_st (x : Reg) (r f : Byte) (s : State) : (s.writeResultFlag x r f).st = s.st := rfl
@[simp] theorem writeResultFlag_mem (x : Reg) (r f : Byte) (s : State) : (s.writeResultFlag x r f).mem = s.mem := rfl
@[simp] theorem writeResultFlag_run (x : Reg) (r f : Byte) (s : State) : (s.writeResultFlag x r f).run = s.run := rfl
@[simp] theorem writeResultFlag_fault (x : Reg) (r f : Byte) (s : State) : (s.writeResultFlag x r f).fault = s.fault := rfl
@[simp] theorem writeResultFlag_env (x : Reg) (r f : Byte) (s : State) : (s.writeResultFlag x r f).env = s.env := rfl
@[simp] theorem writeResultFlag_readSlot (x : Reg) (r f : Byte) (s : State) (slot : Fin 16) : (s.writeResultFlag x r f).readSlot slot = s.readSlot slot := rfl
@[simp] theorem writeResultFlag_readByte (x : Reg) (r f : Byte) (s : State) (addr : Nat) : (s.writeResultFlag x r f).readByte addr = s.readByte addr := rfl

/-! ## `send` -/

@[simp] theorem send_v (q : Request) (s : State) : (s.send q).v = s.v := rfl
@[simp] theorem send_cf (q : Request) (s : State) : (s.send q).cf = s.cf := rfl
@[simp] theorem send_idx (q : Request) (s : State) : (s.send q).idx = s.idx := rfl
@[simp] theorem send_ip (q : Request) (s : State) : (s.send q).ip = s.ip := rfl
@[simp] theorem send_sp (q : Request) (s : State) : (s.send q).sp = s.sp := rfl
@[simp] theorem send_stack (q : Request) (s : State) : (s.send q).stack = s.stack := rfl
@[simp] theorem send_dt (q : Request) (s : State) : (s.send q).dt = s.dt := rfl
@[simp] theorem send_st (q : Request) (s : State) : (s.send q).st = s.st := rfl
@[simp] theorem send_mem (q : Request) (s : State) : (s.send q).mem = s.mem := rfl
@[simp] theorem send_run (q : Request) (s : State) : (s.send q).run = s.run := rfl
@[simp] theorem send_fault (q : Request) (s : State) : (s.send q).fault = s.fault := rfl
@[simp] theorem send_env (q : Request) (s : State) : (s.send q).env = { s.env with requests := s.env.requests ++ [q] } := rfl
@[simp] theorem send_readV (q : Request) (s : State) (j : Reg) : (s.send q).readV j = s.readV j := rfl
@[simp] theorem send_readSlot (q : Request) (s : State) (slot : Fin 16) : (s.send q).readSlot slot = s.readSlot slot := rfl
@[simp] theorem send_readByte (q : Request) (s : State) (addr : Nat) : (s.send q).readByte addr = s.readByte addr := rfl

/-! ## `afterRandom` -/

@[simp] theorem afterRandom_v (s : State) : (s.afterRandom).v = s.v := rfl
@[simp] theorem afterRandom_cf (s : State) : (s.afterRandom).cf = s.cf := rfl
@[simp] theorem afterRandom_idx (s : State) : (s.afterRandom).idx = s.idx := rfl
@[simp] theorem afterRandom_ip (s : State) : (s.afterRandom).ip = s.ip := rfl
@[simp] theorem afterRandom_sp (s : State) : (s.afterRandom).sp = s.sp := rfl
@[simp] theorem afterRandom_stack (s : State) : (s.afterRandom).stack = s.stack := rfl
@[simp] theorem afterRandom_dt (s : State) : (s.afterRandom).dt = s.dt := rfl
@[simp] theorem afterRandom_st (s : State) : (s.afterRandom).st = s.st := rfl
@[simp] theorem afterRandom_mem (s : State) : (s.afterRandom).mem = s.mem := rfl
@[simp] theorem afterRandom_run (s : State) : (s.afterRandom).run = s.run := rfl
@[simp] theorem afterRandom_fault (s : State) : (s.afterRandom).fault = s.fault := rfl
@[simp] theorem afterRandom_env (s : State) : (s.afterRandom).env = { s.env with randoms := s.env.randoms.tail, draws := s.env.draws + 1, requests := s.env.requests ++ [.random] } := rfl
@[simp] theorem afterRandom_readV (s : State) (j : Reg) : (s.afterRandom).readV j = s.readV j := rfl
@[simp] theorem afterRandom_readSlot (s : State) (slot : Fin 16) : (s.afterRandom).readSlot slot = s.readSlot slot := rfl
@[simp] theorem afterRandom_readByte (s : State) (addr : Nat) : (s.afterRandom).readByte addr = s.readByte addr := rfl

/-! ## `afterDraw` -/

@[simp] theorem afterDraw_v (a b : Byte) (sp : List Byte) (s : State) : (s.afterDraw a b sp).v = s.v := rfl
@[simp] theorem afterDraw_cf (a b : Byte) (sp : List Byte) (s : State) : (s.afterDraw a b sp).cf = s.cf := rfl
@[simp] theorem afterDraw_idx (a b : Byte) (sp : List Byte) (s : State) : (s.afterDraw a b sp).idx = s.idx := rfl
@[simp] theorem afterDraw_ip (a b : Byte) (sp : List Byte) (s : State) : (s.afterDraw a b sp).ip = s.ip := rfl
@[simp] theorem afterDraw_sp (a b : Byte) (sp : List Byte) (s : State) : (s.afterDraw a b sp).sp = s.sp := rfl
@[simp] theorem afterDraw_stack (a b : Byte) (sp : List Byte) (s : State) : (s.afterDraw a b sp).stack = s.stack := rfl
@[simp] theorem afterDraw_dt (a b : Byte) (sp : List Byte) (s : State) : (s.afterDraw a b sp).dt = s.dt := rfl
@[simp] theorem afterDraw_st (a b : Byte) (sp : List Byte) (s : State) : (s.afterDraw a b sp).st = s.st := rfl
@[simp] theorem afterDraw_mem (a b : Byte) (sp : List Byte) (s : State) : (s.afterDraw a b sp).mem = s.mem := rfl
@[simp] theorem afterDraw_run (a b : Byte) (sp : List Byte) (s : State) : (s.afterDraw a b sp).run = s.run := rfl
@[simp] theorem afterDraw_fault (a b : Byte) (sp : List Byte) (s : State) : (s.afterDraw a b sp).fault = s.fault := rfl
@[simp] theorem afterDraw_env (a b : Byte) (sp : List Byte) (s : State) : (s.afterDraw a b sp).env = { s.env with collisions := s.env.collisions.tail, draws := s.env.draws + 1, requests := s.env.requests ++ [.displayDraw a b sp] } := rfl
@[simp] theorem afterDraw_readV (a b : Byte) (sp : List Byte) (s : State) (j : Reg) : (s.afterDraw a b sp).readV j = s.readV j := rfl
@[simp] theorem afterDraw_readSlot (a b : Byte) (sp : List Byte) (s : State) (slot : Fin 16) : (s.afterDraw a b sp).readSlot slot = s.readSlot slot := rfl
@[simp] theorem afterDraw_readByte (a b : Byte) (sp : List Byte) (s : State) (addr : Nat) : (s.afterDraw a b sp).readByte addr = s.readByte addr := rfl

/-! ## `afterPressed` -/

@[simp] theorem afterPressed_v (k : Byte) (s : State) : (s.afterPressed k).v = s.v := rfl
@[simp] theorem afterPressed_cf (k : Byte) (s : State) : (s.afterPressed k).cf = s.cf := rfl
@[simp] theorem afterPressed_idx (k : Byte) (s : State) : (s.afterPressed k).idx = s.idx := rfl
@[simp] theorem afterPressed_ip (k : Byte) (s : State) : (s.afterPressed k).ip = s.ip := rfl
@[simp] theorem afterPressed_sp (k : Byte) (s : State) : (s.afterPressed k).sp = s.sp := rfl
@[simp] theorem afterPressed_stack (k : Byte) (s : State) : (s.afterPressed k).stack = s.stack := rfl
@[simp] theorem afterPressed_dt (k : Byte) (s : State) : (s.afterPressed k).dt = s.dt := rfl
@[simp] theorem afterPressed_st (k : Byte) (s : State) : (s.afterPressed k).st = s.st := rfl
@[simp] theorem afterPressed_mem (k : Byte) (s : State) : (s.afterPressed k).mem = s.mem := rfl
@[simp] theorem afterPressed_run (k : Byte) (s : State) : (s.afterPressed k).run = s.run := rfl
@[simp] theorem afterPressed_fault (k : Byte) (s : State) : (s.afterPressed k).fault = s.fault := rfl
@[simp] theorem afterPressed_env (k : Byte) (s : State) : (s.afterPressed k).env = { s.env with presses := s.env.presses.tail, draws := s.env.draws + 1, requests := s.env.requests ++ [.keyPressed k] } := rfl
@[simp] theorem afterPressed_readV (k : Byte) (s : State) (j : Reg) : (s.afterPressed k).readV j = s.readV j := rfl
@[simp] theorem afterPressed_readSlot (k : Byte) (s : State) (slot : Fin 16) : (s.afterPressed k).readSlot slot = s.readSlot slot := rfl
@[simp] theorem afterPressed_readByte (k : Byte) (s : State) (addr : Nat) : (s.afterPressed k).readByte addr = s.readByte addr := rfl

/-! ## `afterKeyWait` -/

@[simp] theorem afterKeyWait_v (s : State) : (s.afterKeyWait).v = s.v := rfl
@[simp] theorem afterKeyWait_cf (s : State) : (s.afterKeyWait).cf = s.cf := rfl
@[simp] theorem afterKeyWait_idx (s : State) : (s.afterKeyWait).idx = s.idx := rfl
@[simp] theorem afterKeyWait_ip (s : State) : (s.afterKeyWait).ip = s.ip := rfl
@[simp] theorem afterKeyWait_sp (s : State) : (s.afterKeyWait).sp = s.sp := rfl
@[simp] theorem afterKeyWait_stack (s : State) : (s.afterKeyWait).stack = s.stack := rfl
@[simp] theorem afterKeyWait_dt (s : State) : (s.afterKeyWait).dt = s.dt := rfl
@[simp] theorem afterKeyWait_st (s : State) : (s.afterKeyWait).st = s.st := rfl
@[simp] theorem afterKeyWait_mem (s : State) : (s.afterKeyWait).mem = s.mem := rfl
@[simp] theorem afterKeyWait_run (s : State) : (s.afterKeyWait).run = s.run := rfl
@[simp] theorem afterKeyWait_fault (s : State) : (s.afterKeyWait).fault = s.fault := rfl
@[simp] theorem afterKeyWait_env (s : State) : (s.afterKeyWait).env = { s.env with keyWaits := s.env.keyWaits.tail, draws := s.env.draws + 1, requests := s.env.requests ++ [.keyWait] } := rfl
@[simp] theorem afterKeyWait_readV (s : State) (j : Reg) : (s.afterKeyWait).readV j = s.readV j := rfl
@[simp] theorem afterKeyWait_readSlot (s : State) (slot : Fin 16) : (s.afterKeyWait).readSlot slot = s.readSlot slot := rfl
@[simp] theorem afterKeyWait_readByte (s : State) (addr : Nat) : (s.afterKeyWait).readByte addr = s.readByte addr := rfl

/-! ## `emitTrace` -/

@[simp] theorem emitTrace_v (w : Word) (s : State) : (s.emitTrace w).v = s.v := rfl
@[simp] theorem emitTrace_cf (w : Word) (s : State) : (s.emitTrace w).cf = s.cf := rfl
@[simp] theorem emitTrace_idx (w : Word) (s : State) : (s.emitTrace w).idx = s.idx := rfl
@[simp] theorem emitTrace_ip (w : Word) (s : State) : (s.emitTrace w).ip = s.ip := rfl
@[simp] theorem emitTrace_sp (w : Word) (s : State) : (s.emitTrace w).sp = s.sp := rfl
@[simp] theorem emitTrace_stack (w : Word) (s : State) : (s.emitTrace w).stack = s.stack := rfl
@[simp] theorem emitTrace_dt (w : Word) (s : State) : (s.emitTrace w).dt = s.dt := rfl
@[simp] theorem emitTrace_st (w : Word) (s : State) : (s.emitTrace w).st = s.st := rfl
@[simp] theorem emitTrace_mem (w : Word) (s : State) : (s.emitTrace w).mem = s.mem := rfl
@[simp] theorem emitTrace_run (w : Word) (s : State) : (s.emitTrace w).run = s.run := rfl
@[simp] theorem emitTrace_fault (w : Word) (s : State) : (s.emitTrace w).fault = s.fault := rfl
@[simp] theorem emitTrace_env (w : Word) (s : State) : (s.emitTrace w).env = { s.env with trace := s.env.trace ++ [⟨s.ip, w, (decode w).isUnrecognized⟩] } := rfl
@[simp] theorem emitTrace_readV (w : Word) (s : State) (j : Reg) : (s.emitTrace w).readV j = s.readV j := rfl
@[simp] theorem emitTrace_readSlot (w : Word) (s : State) (slot : Fin 16) : (s.emitTrace w).readSlot slot = s.readSlot slot := rfl
@[simp] theorem emitTrace_readByte (w : Word) (s : State) (addr : Nat) : (s.emitTrace w).readByte addr = s.readByte addr := rfl

/-! ## `setMoves` -/

@[simp] theorem setMoves_v (ms : List Move) (s : State) : (s.setMoves ms).v = s.v := rfl
@[simp] theorem setMoves_cf (ms : List Move) (s : State) : (s.setMoves ms).cf = s.cf := rfl
@[simp] theorem setMoves_idx (ms : List Move) (s : State) : (s.setMoves ms).idx = s.idx := rfl
@[simp] theorem setMoves_ip (ms : List Move) (s : State) : (s.setMoves ms).ip = s.ip := rfl
@[simp] theorem setMoves_sp (ms : List Move) (s : State) : (s.setMoves ms).sp = s.sp := rfl
@[simp] theorem setMoves_stack (ms : List Move) (s : State) : (s.setMoves ms).stack = s.stack := rfl
@[simp] theorem setMoves_dt (ms : List Move) (s : State) : (s.setMoves ms).dt = s.dt := rfl
@[simp] theorem setMoves_st (ms : List Move) (s : State) : (s.setMoves ms).st = s.st := rfl
@[simp] theorem setMoves_mem (ms : List Move) (s : State) : (s.setMoves ms).mem = s.mem := rfl
@[simp] theorem setMoves_run (ms : List Move) (s : State) : (s.setMoves ms).run = s.run := rfl
@[simp] theorem setMoves_fault (ms : List Move) (s : State) : (s.setMoves ms).fault = s.fault := rfl
@[simp] theorem setMoves_env (ms : List Move) (s : State) : (s.setMoves ms).env = { s.env with moves := ms } := rfl
@[simp] theorem setMoves_readV (ms : List Move) (s : State) (j : Reg) : (s.setMoves ms).readV j = s.readV j := rfl
@[simp] theorem setMoves_readSlot (ms : List Move) (s : State) (slot : Fin 16) : (s.setMoves ms).readSlot slot = s.readSlot slot := rfl
@[simp] theorem setMoves_readByte (ms : List Move) (s : State) (addr : Nat) : (s.setMoves ms).readByte addr = s.readByte addr := rfl

/-! ## `start` -/

@[simp] theorem start_v (s : State) : (s.start).v = s.v := rfl
@[simp] theorem start_cf (s : State) : (s.start).cf = s.cf := rfl
@[simp] theorem start_idx (s : State) : (s.start).idx = s.idx := rfl
@[simp] theorem start_ip (s : State) : (s.start).ip = 0x0200 := rfl
@[simp] theorem start_sp (s : State) : (s.start).sp = s.sp := rfl
@[simp] theorem start_stack (s : State) : (s.start).stack = s.stack := rfl
@[simp] theorem start_dt (s : State) : (s.start).dt = s.dt := rfl
@[simp] theorem start_st (s : State) : (s.start).st = s.st := rfl
@[simp] theorem start_mem (s : State) : (s.start).mem = s.mem := rfl
@[simp] theorem start_run (s : State) : (s.start).run = .running := rfl
@[simp] theorem start_fault (s : State) : (s.start).fault = s.fault := rfl
@[simp] theorem start_env (s : State) : (s.start).env = s.env := rfl
@[simp] theorem start_readV (s : State) (j : Reg) : (s.start).readV j = s.readV j := rfl
@[simp] theorem start_readSlot (s : State) (slot : Fin 16) : (s.start).readSlot slot = s.readSlot slot := rfl
@[simp] theorem start_readByte (s : State) (addr : Nat) : (s.start).readByte addr = s.readByte addr := rfl

/-! ## `loadRom` -/

@[simp] theorem loadRom_v (bs : List Byte) (s : State) : (s.loadRom bs).v = s.v := rfl
@[simp] theorem loadRom_cf (bs : List Byte) (s : State) : (s.loadRom bs).cf = s.cf := rfl
@[simp] theorem loadRom_idx (bs : List Byte) (s : State) : (s.loadRom bs).idx = s.idx := rfl
@[simp] theorem loadRom_ip (bs : List Byte) (s : State) : (s.loadRom bs).ip = s.ip := rfl
@[simp] theorem loadRom_sp (bs : List Byte) (s : State) : (s.loadRom bs).sp = s.sp := rfl
@[simp] theorem loadRom_stack (bs : List Byte) (s : State) : (s.loadRom bs).stack = s.stack := rfl
@[simp] theorem loadRom_dt (bs : List Byte) (s : State) : (s.loadRom bs).dt = s.dt := rfl
@[simp] theorem loadRom_st (bs : List Byte) (s : State) : (s.loadRom bs).st = s.st := rfl
@[simp] theorem loadRom_mem (bs : List Byte) (s : State) : (s.loadRom bs).mem = s.mem.writeList Config.progBase (bs.take Config.romMax) := rfl
@[simp] theorem loadRom_run (bs : List Byte) (s : State) : (s.loadRom bs).run = s.run := rfl
@[simp] theorem loadRom_fault (bs : List Byte) (s : State) : (s.loadRom bs).fault = s.fault := rfl
@[simp] theorem loadRom_env (bs : List Byte) (s : State) : (s.loadRom bs).env = s.env := rfl
@[simp] theorem loadRom_readV (bs : List Byte) (s : State) (j : Reg) : (s.loadRom bs).readV j = s.readV j := rfl
@[simp] theorem loadRom_readSlot (bs : List Byte) (s : State) (slot : Fin 16) : (s.loadRom bs).readSlot slot = s.readSlot slot := rfl

/-! ## `hostReset` -/

@[simp] theorem hostReset_v (s : State) : (s.hostReset).v = State.reset.v := rfl
@[simp] theorem hostReset_cf (s : State) : (s.hostReset).cf = State.reset.cf := rfl
@[simp] theorem hostReset_idx (s : State) : (s.hostReset).idx = State.reset.idx := rfl
@[simp] theorem hostReset_ip (s : State) : (s.hostReset).ip = State.reset.ip := rfl
@[simp] theorem hostReset_sp (s : State) : (s.hostReset).sp = State.reset.sp := rfl
@[simp] theorem hostReset_stack (s : State) : (s.hostReset).stack = State.reset.stack := rfl
@[simp] theorem hostReset_dt (s : State) : (s.hostReset).dt = State.reset.dt := rfl
@[simp] theorem hostReset_st (s : State) : (s.hostReset).st = State.reset.st := rfl
@[simp] theorem hostReset_mem (s : State) : (s.hostReset).mem = State.reset.mem := rfl
@[simp] theorem hostReset_run (s : State) : (s.hostReset).run = State.reset.run := rfl
@[simp] theorem hostReset_fault (s : State) : (s.hostReset).fault = State.reset.fault := rfl
@[simp] theorem hostReset_env (s : State) : (s.hostReset).env = s.env := rfl

/-! ## Reading a register that was written -/

@[simp] theorem readV_setV_self (x : Reg) (b : Byte) (s : State) : (s.setV x b).readV x = b := by
  simp [State.readV]

theorem readV_setV_ne (x j : Reg) (b : Byte) (s : State) (h : j ≠ x) : (s.setV x b).readV j = s.readV j := by
  have : x.val ≠ j.val := fun e => h (Fin.ext e.symm)
  simp [State.readV, this]

theorem readV_setV (x j : Reg) (b : Byte) (s : State) :
    (s.setV x b).readV j = if j = x then b else s.readV j := by
  split
  · next h => subst h; simp
  · next h => exact readV_setV_ne x j b s h

@[simp] theorem readV_writeResult (x j : Reg) (r : Byte) (s : State) :
    (s.writeResult x r).readV j = if j = x then r else s.readV j := by
  simp [State.writeResult, readV_setV]

@[simp] theorem readV_writeResultFlag (x j : Reg) (r f : Byte) (s : State) :
    (s.writeResultFlag x r f).readV j = if j = x then r else s.readV j := by
  simp [State.writeResultFlag, readV_setV]

@[simp] theorem readV_setVBlock (bs : List Byte) (j : Reg) (s : State) :
    (s.setVBlock bs).readV j = (bs[j.val]?).getD (s.readV j) := by
  simp [State.readV, State.setVBlock]

theorem length_readVBlock (s : State) (x : Reg) : (s.readVBlock x).length = x.val + 1 := by
  simp [State.readVBlock]

theorem getElem_readVBlock (s : State) (x j : Reg) (h : j ≤ x) : (s.readVBlock x)[j.val]? = some (s.readV j) := by
  have hj : j.val < x.val + 1 := by have := Fin.le_def.mp h; omega
  simp [State.readVBlock, State.readV, hj]

/-- Two states with the same fields, read as the spec names them, are one. -/
theorem State.ext_fields {s t : State} (hv : ∀ j, s.readV j = t.readV j) (hcf : s.cf = t.cf) (hi : s.idx = t.idx)
    (hip : s.ip = t.ip) (hsp : s.sp = t.sp) (hk : ∀ k, s.readSlot k = t.readSlot k) (hdt : s.dt = t.dt) (hst : s.st = t.st)
    (hm : s.mem = t.mem) (hr : s.run = t.run) (hf : s.fault = t.fault) (he : s.env = t.env) : s = t := by
  have hv' : s.v = t.v := Vector.ext fun i h => hv ⟨i, h⟩
  have hk' : s.stack = t.stack := Vector.ext fun i h => hk ⟨i, h⟩
  cases s; cases t; simp_all

end Sys2Proof.Machine
end

