-- ==== Sys2Proof/Laws/Ops.lean ====
section
/-! SUPPORT. What each shared operation can do, said once: the stack, the checked memory accesses, the store at I, the fetch
checks. -/

namespace Sys2Proof.Machine

theorem push_of_lt {a : Word} {s : State} (h : s.sp.toNat < 16) :
    s.push a = some { s with stack := s.stack.set s.sp.toNat a h, sp := s.sp + 1 } := dif_pos h

theorem push_of_le {a : Word} {s : State} (h : 16 ≤ s.sp.toNat) : s.push a = none := dif_neg (by omega)

/-- A push that succeeds found a free slot and wrote it, SP and nothing else. -/
theorem push_cases {a : Word} {s t : State} (h : s.push a = some t) :
    ∃ hlt : s.sp.toNat < 16, t = { s with stack := s.stack.set s.sp.toNat a hlt, sp := s.sp + 1 } := by
  by_cases hlt : s.sp.toNat < 16
  · rw [push_of_lt hlt] at h; exact ⟨hlt, (Option.some.inj h).symm⟩
  · rw [push_of_le (by omega)] at h; cases h

theorem pop_of_le {s : State} (h : 1 ≤ s.sp.toNat ∧ s.sp.toNat ≤ 16) :
    s.pop = some (s.stack[s.sp.toNat - 1]'(by omega), { s with sp := s.sp - 1 }) := dif_pos h

theorem pop_of_not {s : State} (h : ¬ (1 ≤ s.sp.toNat ∧ s.sp.toNat ≤ 16)) : s.pop = none := dif_neg h

/-- A pop that succeeds found a live slot, left it as it was, and wrote SP and nothing else. -/
theorem pop_cases {a : Word} {s t : State} (h : s.pop = some (a, t)) :
    ∃ hle : 1 ≤ s.sp.toNat ∧ s.sp.toNat ≤ 16,
      a = s.readSlot ⟨s.sp.toNat - 1, by omega⟩ ∧ t = { s with sp := s.sp - 1 } := by
  by_cases hle : 1 ≤ s.sp.toNat ∧ s.sp.toNat ≤ 16
  · rw [pop_of_le hle] at h
    obtain ⟨h1, h2⟩ := Prod.mk.inj (Option.some.inj h)
    exact ⟨hle, h1.symm, h2.symm⟩
  · rw [pop_of_not hle] at h; cases h

theorem inBounds_iff {addr n : Nat} : inBounds addr n = true ↔ addr + n ≤ 4096 := by simp [inBounds]

theorem memRead_of_le {addr n : Nat} {s : State} (h : addr + n ≤ 4096) :
    s.memRead addr n = some (s.mem.readList addr n) := if_pos (inBounds_iff.mpr h)

theorem memRead_of_gt {addr n : Nat} {s : State} (h : 4096 < addr + n) : s.memRead addr n = none :=
  if_neg (by rw [inBounds_iff]; omega)

theorem memWrite_of_le {addr : Nat} {bs : List Byte} {s : State} (h : addr + bs.length ≤ 4096) :
    s.memWrite addr bs = some { s with mem := s.mem.writeList addr bs } := if_pos (inBounds_iff.mpr h)

theorem memWrite_of_gt {addr : Nat} {bs : List Byte} {s : State} (h : 4096 < addr + bs.length) :
    s.memWrite addr bs = none := if_neg (by rw [inBounds_iff]; omega)

theorem storeAtI_of_le {bs : List Byte} {s : State} (h : s.idx.toNat + bs.length ≤ 4096) :
    s.storeAtI bs = { s with mem := s.mem.writeList s.idx.toNat bs, ip := s.ip + 2 } := by
  simp only [State.storeAtI, State.dataAddress, memWrite_of_le h, State.advance]

theorem storeAtI_of_gt {bs : List Byte} {s : State} (h : 4096 < s.idx.toNat + bs.length) :
    s.storeAtI bs = raise .addressOutOfBounds s.idx s := by
  simp only [State.storeAtI, State.dataAddress, memWrite_of_gt h]

/-- The sprite read: none of memory for `n = 0`, the `n` bytes at `I` where they exist. -/
theorem readSprite_of_le {n : Fin 16} {s : State} (h : n.val = 0 ∨ s.idx.toNat + n.val ≤ 4096) :
    s.readSprite n = some (s.mem.readList s.idx.toNat n.val) := by
  unfold State.readSprite
  split
  · next hn => rw [hn]; rfl
  · exact memRead_of_le (h.resolve_left ‹_›)

theorem readSprite_of_gt {n : Fin 16} {s : State} (hn : n.val ≠ 0) (h : 4096 < s.idx.toNat + n.val) :
    s.readSprite n = none := by
  rw [State.readSprite, if_neg hn]
  exact memRead_of_gt h

@[simp] theorem length_bcdDigits (b : Byte) : (bcdDigits b).length = 3 := rfl

/-- An instruction is fetched exactly when IP is even and `0x200 <= IP <= 0xFFE` (20_memory.md R57). -/
theorem fetchCheck_none_iff {ip : Word} :
    fetchCheck ip = none ↔ 0x200 ≤ ip.toNat ∧ ip.toNat ≤ 0xFFE ∧ ip.toNat % 2 = 0 := by
  unfold fetchCheck
  split
  · simp; omega
  · split
    · simp; omega
    · split
      · simp; omega
      · simp; omega

theorem fetchCheck_cases {ip : Word} {c : Condition} (h : fetchCheck ip = some c) :
    (c = .addressOutOfBounds ∧ 0xFFE < ip.toNat) ∨
    (c = .reservedFetch ∧ ip.toNat < 0x200) ∨
    (c = .misalignedFetch ∧ 0x200 ≤ ip.toNat ∧ ip.toNat ≤ 0xFFE ∧ ip.toNat % 2 = 1) := by
  unfold fetchCheck at h
  split at h
  · left; exact ⟨by simpa using h.symm, ‹_›⟩
  · split at h
    · right; left; exact ⟨by simpa using h.symm, ‹_›⟩
    · split at h
      · right; right; exact ⟨by simpa using h.symm, by omega, by omega, ‹_›⟩
      · cases h

theorem code_bounds (c : Condition) : 1 ≤ c.code.toNat ∧ c.code.toNat ≤ 5 := by cases c <;> decide

theorem flagByte_bit (b : Bool) : flagByte b = 0x00 ∨ flagByte b = 0x01 := by cases b <;> simp [flagByte]

end Sys2Proof.Machine
end

