-- ==== Sys2Proof/Laws/PerInstr.lean ====
section
/-! SUPPORT. Facts made per instruction. Family `OpcodeRow`: the word of a well-formed instruction selects its own row of
30_encoding.md R85, and the word of an unrecognized one selects none. That no word selects two rows is said once, of the
map. -/

namespace Sys2Proof.Laws.OpcodeRow

/-- The encoded word selects the instruction's row of the opcode map; where it has none, no row. -/
def Statement (i : Instr) : Prop :=
  i.wf = true → (∀ r, i.row? = some r → r.selects (encode i) = true) ∧
    (i.row? = none → ∀ r ∈ opcodeMap, r.selects (encode i) = false)

/-- Two rows of the map differ in a bit both fix, so no word selects both (30_encoding.md R84). -/
theorem rows_disjoint :
    opcodeMap.Pairwise fun r r' => r.mask &&& r'.mask &&& (r.pattern ^^^ r'.pattern) ≠ 0 := by decide

theorem of_row {i : Instr} {r : OpRow} (hr : i.row? = some r) (h : r.selects (encode i) = true) : Statement i :=
  fun _ => ⟨fun r' hr' => by rw [hr] at hr'; exact Option.some.inj hr' ▸ h, fun hn => by rw [hr] at hn; cases hn⟩

theorem selects_F000 {w p : Word} {m : String} (h : w.toNat / 4096 * 4096 = p.toNat) :
    (OpRow.mk 0xF000 p m).selects w = true := beq_iff_eq.mpr ((and_F000_eq_iff w p).mpr h)

theorem selects_F00F {w p : Word} {m : String} (h : w.toNat / 4096 * 4096 + w.toNat % 16 = p.toNat) :
    (OpRow.mk 0xF00F p m).selects w = true := beq_iff_eq.mpr ((and_F00F_eq_iff w p).mpr h)

theorem selects_F0FF {w p : Word} {m : String} (h : w.toNat / 4096 * 4096 + w.toNat % 256 = p.toNat) :
    (OpRow.mk 0xF0FF p m).selects w = true := beq_iff_eq.mpr ((and_F0FF_eq_iff w p).mpr h)

theorem of_A {i : Instr} {op : Nat} {nnn : Addr} {p : Word} {m : String} (hop : op < 16) (he : encode i = encodeA op nnn)
    (hr : i.row? = some ⟨0xF000, p, m⟩) (hp : p.toNat = op * 4096) : Statement i := by
  have := nnn.isLt
  refine of_row hr (selects_F000 ?_)
  rw [he, toNat_encodeA hop]
  omega

theorem of_RI {i : Instr} {op : Nat} {x : Reg} {kk : Byte} {p : Word} {m : String} (hop : op < 16)
    (he : encode i = encodeRI op x kk) (hr : i.row? = some ⟨0xF000, p, m⟩) (hp : p.toNat = op * 4096) : Statement i := by
  have := x.isLt
  have := kk.isLt
  refine of_row hr (selects_F000 ?_)
  rw [he, toNat_encodeRI hop]
  omega

theorem of_RR {i : Instr} {op f : Nat} {x y : Reg} {p : Word} {m : String} (hop : op < 16) (hf : f < 16)
    (he : encode i = encodeRR op x y f) (hr : i.row? = some ⟨0xF00F, p, m⟩) (hp : p.toNat = op * 4096 + f) :
    Statement i := by
  have := x.isLt
  have := y.isLt
  refine of_row hr (selects_F00F ?_)
  rw [he, toNat_encodeRR hop hf]
  omega

theorem of_RRN {i : Instr} {op : Nat} {x y : Reg} {n : Fin 16} {p : Word} {m : String} (hop : op < 16)
    (he : encode i = encodeRR op x y n.val) (hr : i.row? = some ⟨0xF000, p, m⟩) (hp : p.toNat = op * 4096) :
    Statement i := by
  have := x.isLt
  have := y.isLt
  have := n.isLt
  refine of_row hr (selects_F000 ?_)
  rw [he, toNat_encodeRR hop n.isLt]
  omega

theorem of_R {i : Instr} {op sel : Nat} {x : Reg} {p : Word} {m : String} (hop : op < 16) (hs : sel < 256)
    (he : encode i = encodeR op x sel) (hr : i.row? = some ⟨0xF0FF, p, m⟩) (hp : p.toNat = op * 4096 + sel) :
    Statement i := by
  have := x.isLt
  refine of_row hr (selects_F0FF ?_)
  rw [he, toNat_encodeR hop hs]
  omega

theorem halt : Statement .halt := by unfold Statement; decide

theorem cls : Statement .cls := by unfold Statement; decide

theorem ret : Statement .ret := by unfold Statement; decide

theorem jp (nnn : Addr) : Statement (.jp nnn) := of_A (nnn := nnn) (by decide) rfl rfl rfl

theorem call (nnn : Addr) : Statement (.call nnn) := of_A (nnn := nnn) (by decide) rfl rfl rfl

theorem seImm (x : Reg) (kk : Byte) : Statement (.seImm x kk) :=
  of_RI (x := x) (kk := kk) (by decide) rfl rfl rfl

theorem sneImm (x : Reg) (kk : Byte) : Statement (.sneImm x kk) :=
  of_RI (x := x) (kk := kk) (by decide) rfl rfl rfl

theorem seReg (x y : Reg) : Statement (.seReg x y) :=
  of_RR (x := x) (y := y) (by decide) (by decide) rfl rfl rfl

theorem ldImm (x : Reg) (kk : Byte) : Statement (.ldImm x kk) :=
  of_RI (x := x) (kk := kk) (by decide) rfl rfl rfl

theorem addImm (x : Reg) (kk : Byte) : Statement (.addImm x kk) :=
  of_RI (x := x) (kk := kk) (by decide) rfl rfl rfl

theorem ldReg (x y : Reg) : Statement (.ldReg x y) :=
  of_RR (x := x) (y := y) (by decide) (by decide) rfl rfl rfl

theorem orReg (x y : Reg) : Statement (.orReg x y) :=
  of_RR (x := x) (y := y) (by decide) (by decide) rfl rfl rfl

theorem andReg (x y : Reg) : Statement (.andReg x y) :=
  of_RR (x := x) (y := y) (by decide) (by decide) rfl rfl rfl

theorem xorReg (x y : Reg) : Statement (.xorReg x y) :=
  of_RR (x := x) (y := y) (by decide) (by decide) rfl rfl rfl

theorem addReg (x y : Reg) : Statement (.addReg x y) :=
  of_RR (x := x) (y := y) (by decide) (by decide) rfl rfl rfl

theorem subReg (x y : Reg) : Statement (.subReg x y) :=
  of_RR (x := x) (y := y) (by decide) (by decide) rfl rfl rfl

theorem shr (x : Reg) : Statement (.shr x) :=
  of_RR (x := x) (y := 0) (by decide) (by decide) rfl rfl rfl

theorem subnReg (x y : Reg) : Statement (.subnReg x y) :=
  of_RR (x := x) (y := y) (by decide) (by decide) rfl rfl rfl

theorem shl (x : Reg) : Statement (.shl x) :=
  of_RR (x := x) (y := 0) (by decide) (by decide) rfl rfl rfl

theorem sneReg (x y : Reg) : Statement (.sneReg x y) :=
  of_RR (x := x) (y := y) (by decide) (by decide) rfl rfl rfl

theorem ldI (nnn : Addr) : Statement (.ldI nnn) := of_A (nnn := nnn) (by decide) rfl rfl rfl

theorem jpV0 (nnn : Addr) : Statement (.jpV0 nnn) := of_A (nnn := nnn) (by decide) rfl rfl rfl

theorem rnd (x : Reg) (kk : Byte) : Statement (.rnd x kk) :=
  of_RI (x := x) (kk := kk) (by decide) rfl rfl rfl

theorem drw (x y : Reg) (n : Fin 16) : Statement (.drw x y n) :=
  of_RRN (x := x) (y := y) (n := n) (by decide) rfl rfl rfl

theorem skp (x : Reg) : Statement (.skp x) := of_R (x := x) (by decide) (by decide) rfl rfl rfl

theorem sknp (x : Reg) : Statement (.sknp x) := of_R (x := x) (by decide) (by decide) rfl rfl rfl

theorem ldVxDT (x : Reg) : Statement (.ldVxDT x) := of_R (x := x) (by decide) (by decide) rfl rfl rfl

theorem ldVxK (x : Reg) : Statement (.ldVxK x) := of_R (x := x) (by decide) (by decide) rfl rfl rfl

theorem ldDTVx (x : Reg) : Statement (.ldDTVx x) := of_R (x := x) (by decide) (by decide) rfl rfl rfl

theorem ldSTVx (x : Reg) : Statement (.ldSTVx x) := of_R (x := x) (by decide) (by decide) rfl rfl rfl

theorem addI (x : Reg) : Statement (.addI x) := of_R (x := x) (by decide) (by decide) rfl rfl rfl

theorem ldF (x : Reg) : Statement (.ldF x) := of_R (x := x) (by decide) (by decide) rfl rfl rfl

theorem ldB (x : Reg) : Statement (.ldB x) := of_R (x := x) (by decide) (by decide) rfl rfl rfl

theorem storeRegs (x : Reg) : Statement (.storeRegs x) := of_R (x := x) (by decide) (by decide) rfl rfl rfl

theorem loadRegs (x : Reg) : Statement (.loadRegs x) := of_R (x := x) (by decide) (by decide) rfl rfl rfl

theorem unrecognized (w : Word) : Statement (.unrecognized w) := by
  intro hw
  refine ⟨fun r hr => (by cases hr), fun _ => ?_⟩
  have hlt := w.isLt
  simp only [Instr.wf, isUnrecognizedWord, Bool.or_eq_true, Bool.and_eq_true, beq_iff_eq, bne_iff_ne, Bool.not_eq_true',
    List.contains_eq_mem, decide_eq_true_eq, decide_eq_false_iff_not, List.mem_cons, List.not_mem_nil, or_false] at hw
  simp only [opcodeMap, opcodeMapLow, opcodeMapAlu, opcodeMapHigh, List.cons_append, List.nil_append, List.forall_mem_cons,
    List.not_mem_nil, false_implies, implies_true, and_true, OpRow.selects, encode, beq_eq_false_iff_ne, ne_eq,
    and_F000_eq_iff, and_F00F_eq_iff, and_F0FF_eq_iff, and_FFFF_eq_iff, BitVec.reduceToNat]
  omega

end Sys2Proof.Laws.OpcodeRow
end

