-- ==== Sys2Proof/Laws/Step.lean ====
section
/-! SUPPORT. What a cycle, a move and a step can do, said once: later proofs cite these instead of unfolding step. -/

namespace Sys2Proof.Machine

@[simp] theorem step_of_nil {s : State} (h : s.env.moves = []) : step s = cycle false s := by
  simp [step, nextMove, h]

@[simp] theorem step_of_cons {s : State} {m : Move} {rest : List Move} (h : s.env.moves = m :: rest) :
    step s = takeMove m (s.setMoves rest) := by
  simp [step, nextMove, h]

theorem cycle_of_not_running {stop : Bool} {s : State} (h : s.run ≠ .running) : cycle stop s = .next s := by
  simp [cycle, h]

theorem cycle_of_stop {s : State} (h : s.run = .running) : cycle true s = .next { s with run := .stopped } := by
  simp [cycle, h]

theorem cycle_of_condition {s : State} {c : Condition} (h : s.run = .running) (hc : fetchCheck s.ip = some c) :
    cycle false s = .next (raise c s.ip s) := by
  simp [cycle, h, hc]

theorem cycle_of_fetch {s : State} (h : s.run = .running) (hc : fetchCheck s.ip = none) :
    cycle false s = exec (decode s.fetchWord) (s.emitTrace s.fetchWord) := by
  simp [cycle, h, hc]

/-- Everything a cycle that answers a next state can have done. -/
theorem cycle_cases {stop : Bool} {s t : State} (h : cycle stop s = .next t) :
    (s.run ≠ .running ∧ t = s) ∨
    (s.run = .running ∧ stop = true ∧ t = { s with run := .stopped }) ∨
    (s.run = .running ∧ stop = false ∧ ∃ c, fetchCheck s.ip = some c ∧ t = raise c s.ip s) ∨
    (s.run = .running ∧ stop = false ∧ fetchCheck s.ip = none ∧
      exec (decode s.fetchWord) (s.emitTrace s.fetchWord) = .next t) := by
  by_cases hr : s.run = .running
  · cases stop with
    | true =>
      rw [cycle_of_stop hr] at h
      exact .inr (.inl ⟨hr, rfl, (Host.Outcome.next.inj h).symm⟩)
    | false =>
      cases hc : fetchCheck s.ip with
      | some c =>
        rw [cycle_of_condition hr hc] at h
        exact .inr (.inr (.inl ⟨hr, rfl, c, rfl, (Host.Outcome.next.inj h).symm⟩))
      | none =>
        rw [cycle_of_fetch hr hc] at h
        exact .inr (.inr (.inr ⟨hr, rfl, rfl, h⟩))
  · rw [cycle_of_not_running hr] at h
    exact .inl ⟨hr, (Host.Outcome.next.inj h).symm⟩

/-- Everything a move that answers a next state can have done. -/
theorem takeMove_cases {m : Move} {s t : State} (h : takeMove m s = .next t) :
    (∃ stop, m = .cycle stop ∧ cycle stop s = .next t) ∨
    (m = .tick ∧ t = s.tick) ∨
    (m = .reset ∧ t = s.hostReset) ∨
    (∃ bytes, m = .loadRom bytes ∧ s.run = .idle ∧ t = s.loadRom bytes) ∨
    (m = .start ∧ s.run = .idle ∧ t = s.start) := by
  cases m with
  | cycle stop => exact .inl ⟨stop, rfl, h⟩
  | tick => exact .inr (.inl ⟨rfl, (Host.Outcome.next.inj h).symm⟩)
  | reset => exact .inr (.inr (.inl ⟨rfl, (Host.Outcome.next.inj h).symm⟩))
  | loadRom bytes =>
    simp only [takeMove] at h
    split at h
    · exact .inr (.inr (.inr (.inl ⟨bytes, rfl, ‹_›, (Host.Outcome.next.inj h).symm⟩)))
    · cases h
  | start =>
    simp only [takeMove] at h
    split at h
    · exact .inr (.inr (.inr (.inr ⟨rfl, ‹_›, (Host.Outcome.next.inj h).symm⟩)))
    · cases h

/-- A step is the core's cycle where no move is lined up, else the next move on the state with the later ones left. -/
theorem step_cases {s t : State} (h : step s = .next t) :
    (s.env.moves = [] ∧ cycle false s = .next t) ∨
    (∃ m rest, s.env.moves = m :: rest ∧ takeMove m (s.setMoves rest) = .next t) := by
  cases hm : s.env.moves with
  | nil => rw [step_of_nil hm] at h; exact .inl ⟨rfl, h⟩
  | cons m rest => rw [step_of_cons hm] at h; exact .inr ⟨m, rest, rfl, h⟩

/-- Every instruction answers a next state wherever SP is a legal value. -/
theorem exec_total (i : Instr) {s : State} (h : s.sp.toNat ≤ 16) : ∃ t, exec i s = .next t := by
  cases i with
  | ret =>
    show ∃ t, execRet s = .next t
    by_cases h0 : s.sp = 0
    · exact ⟨_, if_pos h0⟩
    · have h1 : 1 ≤ s.sp.toNat ∧ s.sp.toNat ≤ 16 := by
        refine ⟨?_, h⟩
        have : s.sp.toNat ≠ 0 := fun e => h0 (BitVec.eq_of_toNat_eq e)
        omega
      exact ⟨_, by rw [execRet, if_neg h0, pop_of_le h1]⟩
  | call nnn =>
    show ∃ t, execCall nnn s = .next t
    by_cases h0 : s.sp = 16
    · exact ⟨_, if_pos h0⟩
    · have h1 : s.sp.toNat < 16 := by
        have : s.sp.toNat ≠ 16 := fun e => h0 (BitVec.eq_of_toNat_eq e)
        omega
      exact ⟨_, by rw [execCall, if_neg h0, push_of_lt h1]⟩
  | _ => exact ⟨_, rfl⟩

/-- Where the core's cycle is next, the step is that cycle with the move taken. -/
theorem step_of_atCycle {s : State} (h : s.AtCycle) : step s = cycle false (s.setMoves s.env.moves.tail) := by
  rcases h.2 with hm | hm
  · have e : s.setMoves s.env.moves.tail = s.setMoves s.env.moves := by rw [hm]; rfl
    rw [step_of_nil hm, e]; rfl
  · cases he : s.env.moves with
    | nil => simp [he] at hm
    | cons m rest =>
      obtain rfl : m = .cycle false := by simpa [he] using hm
      exact step_of_cons he

/-- A store at I that stays inside memory, seen byte by byte. -/
theorem readByte_storeAtI {bs : List Byte} {s : State} (hw : s.mem.wf = true) (h : s.idx.toNat + bs.length ≤ 4096)
    (a : Nat) : (s.storeAtI bs).readByte a = s.byteAfterStore bs a := by
  rw [storeAtI_of_le h]
  exact Memory.read_writeList hw h

/-- What an instruction can do to RUN and FAULT: leave both, halt, or raise one of its own fatal conditions on the state it
was given. -/
theorem exec_run_cases {i : Instr} {s t : State} (h : exec i s = .next t) :
    (t.run = s.run ∧ t.fault = s.fault) ∨ (i = .halt ∧ t = { s with run := .halted }) ∨
    ((∃ nnn, i = .call nnn) ∧ s.sp = 16 ∧ t = raise .stackOverflow s.ip s) ∨
    (i = .ret ∧ s.sp = 0 ∧ t = raise .stackUnderflow s.ip s) ∨
    (s.AccessLeavesMemory i ∧ t = raise .addressOutOfBounds s.idx s) := by
  cases i with
  | halt => exact .inr (.inl ⟨rfl, (Host.Outcome.next.inj h).symm⟩)
  | ret =>
    replace h : execRet s = .next t := h
    unfold execRet at h
    split at h
    · next h0 => exact .inr (.inr (.inr (.inl ⟨rfl, h0, (Host.Outcome.next.inj h).symm⟩)))
    · split at h
      · next hp =>
        obtain ⟨_, _, rfl⟩ := pop_cases hp
        obtain rfl := (Host.Outcome.next.inj h).symm
        exact .inl ⟨rfl, rfl⟩
      · cases h
  | call nnn =>
    replace h : execCall nnn s = .next t := h
    unfold execCall at h
    split at h
    · next h0 => exact .inr (.inr (.inl ⟨⟨_, rfl⟩, h0, (Host.Outcome.next.inj h).symm⟩))
    · split at h
      · next hp =>
        obtain ⟨_, rfl⟩ := push_cases hp
        obtain rfl := (Host.Outcome.next.inj h).symm
        exact .inl ⟨rfl, rfl⟩
      · cases h
  | ldB x =>
    obtain rfl := (Host.Outcome.next.inj h).symm
    rcases Nat.lt_or_ge 4096 (s.idx.toNat + 3) with hb | hb
    · exact .inr (.inr (.inr (.inr ⟨.inl ⟨x, rfl, hb⟩, storeAtI_of_gt (by simpa using hb)⟩)))
    · left; rw [storeAtI_of_le (by simpa using hb)]; exact ⟨rfl, rfl⟩
  | storeRegs x =>
    obtain rfl := (Host.Outcome.next.inj h).symm
    have hl : (s.readVBlock x).length = x.val + 1 := by simp [State.readVBlock]
    rcases Nat.lt_or_ge 4096 (s.idx.toNat + x.val + 1) with hb | hb
    · exact .inr (.inr (.inr (.inr ⟨.inr (.inl ⟨x, .inl rfl, hb⟩), storeAtI_of_gt (by omega)⟩)))
    · left; rw [storeAtI_of_le (by omega)]; exact ⟨rfl, rfl⟩
  | loadRegs x =>
    obtain rfl := (Host.Outcome.next.inj h).symm
    rcases Nat.lt_or_ge 4096 (s.idx.toNat + x.val + 1) with hb | hb
    · refine .inr (.inr (.inr (.inr ⟨.inr (.inl ⟨x, .inr rfl, hb⟩), ?_⟩)))
      simp only [State.dataAddress, memRead_of_gt (show 4096 < s.idx.toNat + (x.val + 1) by omega)]
    · left
      simp only [State.dataAddress, memRead_of_le (show s.idx.toNat + (x.val + 1) ≤ 4096 by omega)]
      exact ⟨rfl, rfl⟩
  | drw x y n =>
    obtain rfl := (Host.Outcome.next.inj h).symm
    by_cases hb : n.val = 0 ∨ s.idx.toNat + n.val ≤ 4096
    · left; rw [readSprite_of_le hb]; exact ⟨rfl, rfl⟩
    · refine .inr (.inr (.inr (.inr ⟨.inr (.inr ⟨x, y, n, rfl, by omega, by omega⟩), ?_⟩)))
      rw [readSprite_of_gt (by omega) (by omega)]
  | ldVxK x =>
    obtain rfl := (Host.Outcome.next.inj h).symm
    left
    cases s.keyWaitAnswer <;> exact ⟨rfl, rfl⟩
  | _ => obtain rfl := (Host.Outcome.next.inj h).symm; exact .inl ⟨rfl, rfl⟩

end Sys2Proof.Machine
end

