-- ==== Sys2Proof/Tests/Slice0.lean ====
section
/-! SUPPORT. Tests of the model, with expected results written out in 95_test_vectors.md (ids E, T, H) or from the rule named,
and a witness for the hypotheses of every statement that has some. -/

open Sys2Proof Sys2Proof.Machine

namespace Sys2Proof.Tests

/-! ## Helpers -/

/-- The state after Reset and Start, with `IP` at this address (95_test_vectors.md, conventions). -/
def startAt (a : Word) : State := { State.reset with run := .running, ip := a }

/-- The state after Reset and Start. -/
def start : State := startAt 0x0200

/-- With this `SP`, and `STACK[j] = 0x0202 + 2 * j`. -/
def withStack (n : Byte) (s : State) : State :=
  { s with sp := n, stack := Vector.ofFn fun j => BitVec.ofNat 16 (0x0202 + 2 * j.val) }

/-- With these bytes of memory, from an address upward. -/
def withMem (a : Nat) (bytes : List Byte) (s : State) : State := { s with mem := s.mem.writeList a bytes }

/-- With these moves to come. -/
def withMoves (ms : List Move) (s : State) : State := { s with env := { s.env with moves := ms } }

/-- With this run state. -/
def withRun (r : RunState) (s : State) : State := { s with run := r }

/-- One cycle on the word placed at `IP` leads to the state `f` makes of the one before, the trace left aside. -/
def yields (s : State) (w : Nat) (f : State → State) : Bool :=
  match step (s.withFetchWord 16 w) with
  | .next t => decide ({ t with env := { t.env with trace := [] } } = f (s.withFetchWord 16 w))
  | _ => false

/-- One cycle on the word placed at `IP` leads to a state of which `p` holds. -/
def leadsTo (s : State) (w : Nat) (p : State → Bool) : Bool :=
  match step (s.withFetchWord 16 w) with
  | .next t => p t
  | _ => false

/-- One step leads to a state of which `p` holds. -/
def stepsTo (s : State) (p : State → Bool) : Bool :=
  match step s with
  | .next t => p t
  | _ => false

/-! ## Well-formedness: the one check, on a word that is another instruction's -/

theorem test_wf_refuses_listed_word : (Instr.unrecognized 0x7105).wf = false := by decide
theorem test_wf_refuses_halt_word : (Instr.unrecognized 0x0000).wf = false := by decide
theorem test_wf_accepts_unlisted_word : (Instr.unrecognized 0x5AB1).wf = true := by decide
theorem test_wf_accepts_drw : (Instr.drw 0xA 0xB 5).wf = true := by decide

/-! ## Decoding: every constructor from a word of 30_encoding.md R85's patterns (E1 to E29) -/

theorem test_decode_system : decode 0x0000 = .halt ∧ decode 0x00E0 = .cls ∧ decode 0x00EE = .ret := by decide
theorem test_decode_flow : decode 0x1ABC = .jp 0xABC ∧ decode 0x2ABC = .call 0xABC ∧ decode 0xBABC = .jpV0 0xABC := by
  decide
theorem test_decode_skips : decode 0x3A7F = .seImm 0xA 0x7F ∧ decode 0x4A7F = .sneImm 0xA 0x7F ∧
    decode 0x5AB0 = .seReg 0xA 0xB ∧ decode 0x9AB0 = .sneReg 0xA 0xB := by decide
theorem test_decode_immediates : decode 0x6A7F = .ldImm 0xA 0x7F ∧ decode 0x7A7F = .addImm 0xA 0x7F ∧
    decode 0xCA7F = .rnd 0xA 0x7F := by decide
theorem test_decode_alu : decode 0x8AB0 = .ldReg 0xA 0xB ∧ decode 0x8AB1 = .orReg 0xA 0xB ∧
    decode 0x8AB2 = .andReg 0xA 0xB ∧ decode 0x8AB3 = .xorReg 0xA 0xB ∧ decode 0x8AB4 = .addReg 0xA 0xB ∧
    decode 0x8AB5 = .subReg 0xA 0xB ∧ decode 0x8AB6 = .shr 0xA ∧ decode 0x8AB7 = .subnReg 0xA 0xB ∧
    decode 0x8ABE = .shl 0xA := by decide
theorem test_decode_index_draw : decode 0xAABC = .ldI 0xABC ∧ decode 0xDAB5 = .drw 0xA 0xB 5 := by decide
theorem test_decode_keys : decode 0xEA9E = .skp 0xA ∧ decode 0xEAA1 = .sknp 0xA := by decide
theorem test_decode_family_F : decode 0xFA07 = .ldVxDT 0xA ∧ decode 0xFA0A = .ldVxK 0xA ∧ decode 0xFA15 = .ldDTVx 0xA ∧
    decode 0xFA18 = .ldSTVx 0xA ∧ decode 0xFA1E = .addI 0xA ∧ decode 0xFA29 = .ldF 0xA ∧ decode 0xFA33 = .ldB 0xA ∧
    decode 0xFA55 = .storeRegs 0xA ∧ decode 0xFA65 = .loadRegs 0xA := by decide
theorem test_decode_unrecognized : ([0x00E1, 0x01E0, 0x0FFF, 0x5AB1, 0x8AB8, 0x8ABD, 0x8ABF, 0x9ABF, 0xEA9F, 0xEAA0,
    0xEA00, 0xFA00, 0xFA08, 0xFA75, 0xFA85, 0xFAFF] : List Word).all (fun w => decode w == .unrecognized w) = true := by
  decide
theorem test_decode_bytes_big_endian : decodeBytes [0x71, 0x05, 0x80] = .ok (.addImm 1 0x05, [0x80]) ∧
    decodeBytes [0x71] = .error .truncated ∧ decodeBytes [] = .error .truncated := by decide
theorem test_table_word : decodeTableWord 16 0xDAB5 = some (.drw 0xA 0xB 5) ∧
    decodeTableWord 16 0x2ABC = some (.call 0xABC) := by decide
theorem test_encode_words : encode (.drw 0xA 0xB 5) = 0xDAB5 ∧ encode (.shl 0xA) = 0x8A0E ∧ encode (.ldB 0xA) = 0xFA33 ∧
    encode (.addImm 1 0x05) = 0x7105 ∧ encode (.jpV0 0xABC) = 0xBABC := by decide

/-! ## One cycle of each instruction (T1 to T98): the whole state after it -/

theorem test_halt_T2 : yields { withStack 2 ((startAt 0x3FE).setV 3 0x77) with cf := 0x01 } 0x0000
    (fun s => { s with run := .halted }) = true := by decide
theorem test_cls_T3 : yields start 0x00E0
    (fun s => { s with ip := 0x202, env := { s.env with requests := [.displayClear] } }) = true := by decide
theorem test_ret_T5 : yields (withStack 16 (startAt 0x300)) 0x00EE (fun s => { s with ip := 0x220, sp := 15 }) = true := by
  decide
theorem test_ret_T6 : yields start 0x00EE (fun s => { s with run := .fatal, fault := ⟨2, 0x200⟩ }) = true := by decide
theorem test_jp_T8 : yields start 0x1200 id = true := by decide
theorem test_jp_T9 : yields start 0x1FFF (fun s => { s with ip := 0xFFF }) = true := by decide
theorem test_call_T11 : yields { startAt 0xFFE with sp := 15 } 0x2300
    (fun s => { s with ip := 0x300, sp := 16, stack := s.stack.set 15 0x1000 }) = true := by decide
theorem test_call_T12 : yields { startAt 0x204 with sp := 16 } 0x2300
    (fun s => { s with run := .fatal, fault := ⟨1, 0x204⟩ }) = true := by decide
theorem test_jpV0_T14 : yields (start.setV 0 0xFF) 0xBFFF (fun s => { s with ip := 0x10FE }) = true := by decide
theorem test_jpV0_T15 : yields ((start.setV 0 0x01).setV 3 0x10) 0xB300 (fun s => { s with ip := 0x301 }) = true := by decide
theorem test_unrecognized_T17 : yields ((start.setV 1 7).setV 2 7) 0x5121 (fun s => { s with ip := 0x202 }) = true := by
  decide
theorem test_unrecognized_T21 : yields (startAt 0xFFE) 0xFFFF (fun s => { s with ip := 0x1000 }) = true := by decide
theorem test_seImm_T24 : yields { start with cf := 0x01 } 0x3F01 (fun s => { s with ip := 0x202 }) = true := by decide
theorem test_seImm_T25 : yields (startAt 0xFFE) 0x3000 (fun s => { s with ip := 0x1002 }) = true := by decide
theorem test_sneImm_T26 : yields ((startAt 0x300).setV 3 0x10) 0x4311 (fun s => { s with ip := 0x304 }) = true := by decide
theorem test_sneImm_T27 : yields ((startAt 0x300).setV 3 0x10) 0x4310 (fun s => { s with ip := 0x302 }) = true := by decide
theorem test_seReg_T28 : yields ((start.setV 1 7).setV 2 7) 0x5120 (fun s => { s with ip := 0x204 }) = true := by decide
theorem test_seReg_T29 : yields ((start.setV 1 7).setV 2 8) 0x5120 (fun s => { s with ip := 0x202 }) = true := by decide
theorem test_sneReg_T31 : yields ((start.setV 1 7).setV 2 8) 0x9120 (fun s => { s with ip := 0x204 }) = true := by decide
theorem test_sneReg_T32 : yields ((start.setV 1 7).setV 2 7) 0x9120 (fun s => { s with ip := 0x202 }) = true := by decide
theorem test_ldImm_T35 : yields start 0x6F01 (fun s => { s.setV 0xF 0x01 with ip := 0x202 }) = true := by decide
theorem test_addImm_T36 : yields (start.setV 1 0x02) 0x7105 (fun s => { s.setV 1 0x07 with ip := 0x202 }) = true := by decide
theorem test_addImm_T37 : yields { start.setV 1 0xFF with cf := 0x01 } 0x7101
    (fun s => { s.setV 1 0x00 with ip := 0x202 }) = true := by decide
theorem test_ldReg_T39 : yields (start.setV 2 0x5A) 0x8120 (fun s => { s.setV 1 0x5A with ip := 0x202 }) = true := by decide
theorem test_orReg_T40 : yields { (start.setV 1 0xF0).setV 2 0x0F with cf := 0x01 } 0x8121
    (fun s => { s.setV 1 0xFF with ip := 0x202 }) = true := by decide
theorem test_andReg_T41 : yields ((start.setV 1 0xF3).setV 2 0x3C) 0x8122
    (fun s => { s.setV 1 0x30 with ip := 0x202 }) = true := by decide
theorem test_xorReg_T42 : yields ((start.setV 1 0xFF).setV 2 0x0F) 0x8123
    (fun s => { s.setV 1 0xF0 with ip := 0x202 }) = true := by decide
theorem test_addReg_T44 : yields { (start.setV 0 0xFF).setV 1 0x02 with cf := 0x01 } 0x8014
    (fun s => { s.setV 0 0x01 with cf := 0x00, ip := 0x202 }) = true := by decide
theorem test_addReg_T50 : yields ((start.setV 0xF 0x10).setV 1 0x20) 0x8F14
    (fun s => { s.setV 0xF 0x30 with cf := 0x01, ip := 0x202 }) = true := by decide
theorem test_subReg_T53 : yields ((start.setV 1 0x01).setV 0 0x07) 0x8105
    (fun s => { s.setV 1 0xFA with cf := 0x01, ip := 0x202 }) = true := by decide
theorem test_subReg_T54 : yields { (start.setV 1 0x33).setV 0 0x33 with cf := 0x01 } 0x8105
    (fun s => { s.setV 1 0x00 with cf := 0x00, ip := 0x202 }) = true := by decide
theorem test_shr_T57 : yields ((start.setV 2 0xFF).setV 3 0x10) 0x8236
    (fun s => { s.setV 2 0x7F with cf := 0x01, ip := 0x202 }) = true := by decide
theorem test_subnReg_T59 : yields { (start.setV 1 0x03).setV 2 0x0A with cf := 0x01 } 0x8127
    (fun s => { s.setV 1 0x07 with cf := 0x00, ip := 0x202 }) = true := by decide
theorem test_subnReg_T60 : yields ((start.setV 1 0x0A).setV 2 0x03) 0x8127
    (fun s => { s.setV 1 0xF9 with cf := 0x01, ip := 0x202 }) = true := by decide
theorem test_shl_T62 : yields { start.setV 2 0x7F with cf := 0x01 } 0x820E
    (fun s => { s.setV 2 0xFE with cf := 0x00, ip := 0x202 }) = true := by decide
theorem test_shl_T63 : yields ((start.setV 2 0x80).setV 0xF 0x33) 0x82FE
    (fun s => { s.setV 2 0x00 with cf := 0x01, ip := 0x202 }) = true := by decide
theorem test_ldI_T65 : yields { start with idx := 0x1234 } 0xAFFF (fun s => { s with idx := 0xFFF, ip := 0x202 }) = true := by
  decide
theorem test_addI_T67 : yields { start.setV 3 0x01 with idx := 0xFFF } 0xF31E
    (fun s => { s with idx := 0x1000, ip := 0x202 }) = true := by decide
theorem test_addI_T68 : yields { start.setV 3 0x01 with idx := 0xFFFF } 0xF31E
    (fun s => { s with idx := 0x0000, ip := 0x202 }) = true := by decide
theorem test_ldF_T70 : yields { start.setV 4 0x1F with idx := 0x300 } 0xF429
    (fun s => { s with idx := 0x4B, ip := 0x202 }) = true := by decide
theorem test_ldB_T72 : leadsTo { start.setV 0 0xFF with idx := 0xFFD } 0xF033
    (fun t => t.mem == [(0x200, 0xF0), (0x201, 0x33), (0xFFD, 2), (0xFFE, 5), (0xFFF, 5)] && t.ip == 0x202) = true := by
  decide
theorem test_ldB_T73_over_old_contents : leadsTo { withMem 0x300 [0xAA, 0xBB, 0xCC] (start.setV 0 0x09) with idx := 0x300 }
    0xF033 (fun t => t.mem == [(0x200, 0xF0), (0x201, 0x33), (0x302, 9)]) = true := by decide
theorem test_storeRegs_T76 : leadsTo { (((start.setV 0 1).setV 1 2).setV 2 3).setV 3 4 with idx := 0x400 } 0xF255
    (fun t => t.mem == [(0x200, 0xF2), (0x201, 0x55), (0x400, 1), (0x401, 2), (0x402, 3)] && t.idx == 0x400) = true := by
  decide
theorem test_storeRegs_T78 : yields { (start.setV 0 1).setV 1 2 with idx := 0xFFF } 0xF155
    (fun s => { s with run := .fatal, fault := ⟨3, 0xFFF⟩ }) = true := by decide
theorem test_loadRegs_T79 : yields { withMem 0x300 [2, 5, 4, 9] start with idx := 0x300 } 0xF265
    (fun s => { ((s.setV 0 2).setV 1 5).setV 2 4 with ip := 0x202 }) = true := by decide
theorem test_loadRegs_T81 : yields { withMem 0xFFF [0x77] (start.setV 0 0x55) with idx := 0xFFF } 0xF165
    (fun s => { s with run := .fatal, fault := ⟨3, 0xFFF⟩ }) = true := by decide
theorem test_ldVxDT_T83 : yields { start with dt := 0x3C } 0xF207 (fun s => { s.setV 2 0x3C with ip := 0x202 }) = true := by
  decide
theorem test_ldDTVx_T84 : yields (start.setV 2 0x3C) 0xF215 (fun s => { s with dt := 0x3C, ip := 0x202 }) = true := by decide
theorem test_ldSTVx_T85 : yields (start.setV 5 0x0A) 0xF518 (fun s => { s with st := 0x0A, ip := 0x202 }) = true := by decide
theorem test_rnd_T86 : leadsTo { start with env := { Env.reset with randoms := [0xA7, 0x11] } } 0xC30F
    (fun t => t.readV 3 == 0x07 && t.ip == 0x202 && t.cf == 0x00 && t.env.randoms == [0x11]) = true := by decide
theorem test_drw_T90 : leadsTo { withMem 0x300 [0xF0, 0x90] ((start.setV 1 3).setV 2 4) with
      idx := 0x300, cf := 0x01, env := { Env.reset with collisions := [false] } } 0xD122
    (fun t => t.cf == 0x00 && t.ip == 0x202 && t.idx == 0x300 &&
      t.env.requests == [.displayDraw 0x03 0x04 [0xF0, 0x90]]) = true := by decide
theorem test_drw_T91 : leadsTo { (start.setV 1 0xFF).setV 2 0x80 with
      idx := 0x2000, env := { Env.reset with collisions := [true] } } 0xD120
    (fun t => t.cf == 0x01 && t.ip == 0x202 && t.env.requests == [.displayDraw 0xFF 0x80 []]) = true := by decide
theorem test_drw_T92 : yields { start with idx := 0xFFC, cf := 0x01 } 0xD125
    (fun s => { s with run := .fatal, fault := ⟨3, 0xFFC⟩ }) = true := by decide
theorem test_skp_T93_T94 : leadsTo { start.setV 1 5 with env := { Env.reset with presses := [true] } } 0xE19E
      (fun t => t.ip == 0x204 && t.env.requests == [.keyPressed 5]) = true ∧
    leadsTo { start.setV 1 5 with env := { Env.reset with presses := [false] } } 0xE19E (fun t => t.ip == 0x202) = true := by
  decide
theorem test_sknp_T95_T96 : leadsTo { start.setV 1 5 with env := { Env.reset with presses := [false] } } 0xE1A1
      (fun t => t.ip == 0x204) = true ∧
    leadsTo { start.setV 1 0xFF with env := { Env.reset with presses := [true] } } 0xE1A1
      (fun t => t.ip == 0x202 && t.env.requests == [.keyPressed 0xFF]) = true := by decide
theorem test_ldVxK_T97 : yields { start with env := { Env.reset with keyWaits := [none, some 7] } } 0xF30A
    (fun s => { s with env := { s.env with keyWaits := [some 7], draws := 1, requests := [.keyWait] } }) = true := by decide
theorem test_ldVxK_T98 : leadsTo { start with env := { Env.reset with keyWaits := [some 7] } } 0xF30A
    (fun t => t.readV 3 == 7 && t.ip == 0x202) = true := by decide

/-! ## Fetch checks (T99 to T105), host, tick and stop (H1 to H12) -/

theorem test_fetch_checks_T99_T105 : ([(0x0FFF, 3), (0x1000, 3), (0x10FE, 3), (0x0203, 4), (0x0100, 5), (0x0101, 5),
    (0x0000, 5)] : List (Word × BitVec 3)).all (fun p => stepsTo (startAt p.1) fun t =>
      t == { startAt p.1 with run := .fatal, fault := ⟨p.2, p.1⟩ }) = true := by decide
theorem test_trace_carries_word_and_pulse : leadsTo start 0x8008
    (fun t => t.env.trace == [⟨0x200, 0x8008, true⟩]) = true := by decide
theorem test_reset_H1 : stepsTo (withMoves [.reset] { withStack 3 (withMem 0x300 [1] (start.setV 4 9)) with cf := 1 })
    (fun t => t == State.reset) = true := by decide
theorem test_loadRom_H2 : stepsTo (withMoves [.loadRom [0x60, 0xFF, 0x00]] State.reset)
    (fun t => t == { State.reset with mem := [(0x200, 0x60), (0x201, 0xFF)] }) = true := by decide
theorem test_start_H6 : stepsTo (withMoves [.start] State.reset) (fun t => t == start) = true := by decide
theorem test_stop_H8 : stepsTo (withMoves [.cycle true] (startAt 0x203))
    (fun t => t == { startAt 0x203 with run := .stopped }) = true := by decide
theorem test_tick_H9 : stepsTo (withMoves [.tick] { start with dt := 3 }) (fun t => t == { start with dt := 2 }) = true := by
  decide
theorem test_tick_H10 : stepsTo (withMoves [.tick] { start with dt := 1, st := 1 }) (fun t => t == start) = true := by decide
theorem test_tick_H11 : ∀ r ∈ [RunState.idle, .halted, .stopped, .fatal],
    stepsTo (withMoves [.tick] { withRun r start with dt := 3 }) (fun t => t == { withRun r start with dt := 3 }) = true := by
  decide
theorem test_fatal_H12 : step (withRun .fatal start) = .next (withRun .fatal start) := rfl

/-! ## Witnesses: concrete states and operands that meet the hypotheses of each statement, clause by clause -/

theorem witness_DecodeOfEncodeIsTheInstruction : (Instr.loadRegs 0xF).wf = true ∧ (Instr.unrecognized 0xFFFF).wf = true := by
  decide

theorem witness_ShiftsIgnoreTheYField : ∃ (x y : Reg) (i : Instr), (i = .shr x ∨ i = .shl x) ∧ y ≠ x :=
  ⟨0, 0xF, .shr 0, .inl rfl, by decide⟩

/-- At the last legal fetch address, with an empty list of moves and with a cycle lined up. -/
theorem witness_StepRunsTheDecodedInstruction : ∃ (s u : State) (i : Instr),
    s.env.moves = [] ∧ u.env.moves = .cycle false :: [.tick] ∧
    (∀ t ∈ [s, u], t.run = .running ∧ 0x200 ≤ t.ip.toNat ∧ t.ip.toNat ≤ 0xFFE ∧ t.ip.toNat % 2 = 0 ∧
      decodeBytes [t.readByte t.ip.toNat, t.readByte (t.ip.toNat + 1)] = .ok (i, [])) :=
  ⟨withMem 0xFFE [0x71, 0x05] (startAt 0xFFE), withMoves [.cycle false, .tick] (withMem 0xFFE [0x71, 0x05] (startAt 0xFFE)),
    .addImm 1 0x05, rfl, rfl, by decide⟩

theorem witness_FetchChecksComeInOrder :
    (∀ a, (startAt a).env.moves = [] ∧ (startAt a).run = .running ∧ (startAt a).ip = a) ∧
    (∀ a, (withMoves [.cycle false] (startAt a)).env.moves.head? = some (.cycle false)) ∧
    0x0FFE < (0x0FFF : Word).toNat ∧ (0x01FF : Word).toNat < 0x0200 ∧
    (0x0200 ≤ (0x0201 : Word).toNat ∧ (0x0FFD : Word).toNat ≤ 0x0FFE ∧ (0x0FFD : Word).toNat % 2 = 1) ∧
    (0x0200 ≤ (0x0200 : Word).toNat ∧ (0x0FFE : Word).toNat ≤ 0x0FFE ∧ (0x0FFE : Word).toNat % 2 = 0) :=
  ⟨fun _ => ⟨rfl, rfl, rfl⟩, fun _ => rfl, by decide⟩

theorem witness_StopIsSampledBeforeTheFetch :
    (withMoves [.cycle true] (startAt 0x1000)).env.moves = .cycle true :: [] ∧
    (withMoves [.cycle true] (startAt 0x1000)).run = .running := by decide

theorem witness_NothingChangesUnlessRunning : ∀ r ∈ [RunState.idle, .halted, .stopped, .fatal],
    (withRun r start).run ≠ .running ∧ (withRun r start).env.moves = [] ∧
    ∀ m ∈ [Move.cycle true, .cycle false, .tick], (withMoves [m] (withRun r start)).env.moves = m :: [] := by decide

theorem witness_TickCountsBothTimersDown :
    (withMoves [.tick] { start with dt := 1 }).env.moves = .tick :: [] ∧ (withMoves [.tick] { start with dt := 1 }).run = .running ∧
    (withMoves [.tick] { start with dt := 1 }).dt ≠ 0x00 ∧ (withMoves [.tick] { start with dt := 1 }).st = 0x00 ∧
    (withMoves [.tick] { start with st := 0xFF }).dt = 0x00 ∧ (withMoves [.tick] { start with st := 0xFF }).st ≠ 0x00 := by
  decide

theorem witness_ResetMoveRestoresEveryResetValue :
    (withMoves [.reset, .tick] (withRun .fatal start)).env.moves = .reset :: [.tick] := by decide

/-- One byte, and one byte more than the capacity: the last `j` kept is 3583. -/
theorem witness_LoadRomCopiesUpToCapacity : ∃ (s u : State) (bs bs' : List Byte),
    s.env.moves = .loadRom bs :: [] ∧ s.run = .idle ∧ s.mem.wf = true ∧ 0 < min bs.length 3584 ∧
    u.env.moves = .loadRom bs' :: [] ∧ u.run = .idle ∧ u.mem.wf = true ∧ 3583 < min bs'.length 3584 ∧ 3584 < bs'.length := by
  refine ⟨withMoves [.loadRom [0x60]] State.reset, withMoves [.loadRom (List.replicate 3585 0xAB)] State.reset, [0x60],
    List.replicate 3585 0xAB, rfl, rfl, rfl, by decide, rfl, rfl, rfl, ?_, ?_⟩ <;> rw [List.length_replicate] <;> decide

theorem witness_StartSeedsIPAndRuns : (withMoves [.start, .cycle false] State.reset).env.moves = .start :: [.cycle false] ∧
    (withMoves [.start, .cycle false] State.reset).run = .idle := by decide

theorem witness_LoadRomAndStartAreRefusedOutsideIdle :
    (withMoves [.start] start).env.moves = .start :: [] ∧ (withMoves [.start] start).run ≠ .idle ∧
    (withMoves [.loadRom [0x60]] (withRun .halted start)).env.moves = .loadRom [0x60] :: [] ∧
    (withMoves [.loadRom [0x60]] (withRun .halted start)).run ≠ .idle := by decide

theorem witness_BootLeadsToTheLaunchState : 0 < min ([0x60] : List Byte).length 3584 := by decide

/-- The word 0x0000 at both ends of the legal fetch range. -/
theorem witness_HaltEndsTheRunInPlace :
    (∀ a, (startAt a).env.moves = [] ∧ (startAt a).run = .running ∧ (startAt a).ip = a ∧
      ∀ k, (startAt a).readByte k = 0x00) ∧
    (0x200 ≤ (0x0200 : Word).toNat ∧ (0x0200 : Word).toNat ≤ 0xFFE ∧ (0x0200 : Word).toNat % 2 = 0) ∧
    0x200 ≤ (0x0FFE : Word).toNat ∧ (0x0FFE : Word).toNat ≤ 0xFFE ∧ (0x0FFE : Word).toNat % 2 = 0 :=
  ⟨fun _ => ⟨rfl, rfl, rfl, fun _ => rfl⟩, by decide⟩

theorem witness_RetPopsIntoIP : (withStack 0 start).sp = 0x00 ∧ (withStack 1 start).sp.toNat = (0 : Fin 16).val + 1 ∧
    (withStack 16 start).sp.toNat = (15 : Fin 16).val + 1 := by decide

theorem witness_CallPushesAndJumps : (withStack 16 start).sp.toNat = 16 ∧ (withStack 0 start).sp.toNat = (0 : Fin 16).val ∧
    (withStack 15 start).sp.toNat = (15 : Fin 16).val := by decide

theorem witness_StackPointerAboveSixteenStops : 16 < (withStack 17 start).sp.toNat ∧ 16 < (withStack 0xFF start).sp.toNat := by
  decide

theorem witness_UnrecognizedWordsOnlyAdvance : ∀ r ∈ opcodeMap, (0x5AB1 : Word) &&& r.mask ≠ r.pattern := by
  have h : opcodeMap.all (fun r => (0x5AB1 : Word) &&& r.mask != r.pattern) = true := by decide
  simpa using List.all_eq_true.mp h

/-- The highest `I` of a BCD store, and the one after it. -/
theorem witness_BcdStoresThreeDigits : ∃ s u : State, s.mem.wf = true ∧ s.idx.toNat + 3 ≤ 4096 ∧ 4096 < u.idx.toNat + 3 :=
  ⟨{ start with idx := 0xFFD }, { start with idx := 0xFFE }, by decide⟩

theorem witness_StoreRegistersWritesTheBlock : ∃ (s u : State) (x j : Reg), s.mem.wf = true ∧
    s.idx.toNat + (x.val + 1) ≤ 4096 ∧ j ≤ x ∧ 4096 < u.idx.toNat + (x.val + 1) :=
  ⟨{ start with idx := 0xFF0 }, { start with idx := 0xFF1 }, 0xF, 0xF, by decide⟩

theorem witness_LoadRegistersReadsTheBlock : ∃ (s u : State) (x j : Reg), s.idx.toNat + (x.val + 1) ≤ 4096 ∧ j ≤ x ∧
    4096 < u.idx.toNat + (x.val + 1) :=
  ⟨{ start with idx := 0xFFF }, { start with idx := 0x1000 }, 0, 0, by decide⟩

/-- The state loaded from differs from the one after the store in a register and in IP. -/
theorem witness_StoreThenLoadReturnsTheRegisters : ∃ (x j : Reg) (s t u : State), s.mem.wf = true ∧
    s.idx.toNat + (x.val + 1) ≤ 4096 ∧ exec (.storeRegs x) s = .next t ∧ u.mem = t.mem ∧ u.idx = s.idx ∧ u ≠ t ∧ j ≤ x :=
  ⟨1, 1, { (start.setV 0 1).setV 1 2 with idx := 0x400 }, _,
    { withMem 0x400 [1, 2] ((start.setV 0 9).setV 1 9) with idx := 0x400, ip := 0x300 }, by decide, by decide, rfl,
    by decide, rfl, by decide, by decide⟩

/-- LD [I], V1 on both bytes of the next instruction; LD B on its high byte alone, and on the last byte of memory. -/
theorem witness_StoreIsSeenByTheVeryNextFetch :
    (∃ (s : State) (x : Reg) (bytes : List Byte), s.mem.wf = true ∧ s.FetchLegal ∧ bytes.length = x.val + 1 ∧
      (∀ j : Reg, j ≤ x → bytes[j.val]? = some (s.readV j)) ∧ s.idx.toNat + bytes.length ≤ 4096 ∧
      s.idx.toNat = s.ip.toNat + 2) ∧
    ∃ (s : State) (bytes : List Byte), s.mem.wf = true ∧ s.FetchLegal ∧ bytes.map (fun b => b.toNat) =
      [(s.readV 0).toNat / 100, (s.readV 0).toNat / 10 % 10, (s.readV 0).toNat % 10] ∧ s.idx.toNat + bytes.length = 4096 ∧
      s.idx.toNat + 2 = s.ip.toNat + 3 :=
  ⟨⟨{ (startAt 0x206).setV 0 0x60 with idx := 0x208 }, 1, [0x60, 0x00], by decide⟩,
    ⟨{ (startAt 0xFFC).setV 0 0xFE with idx := 0xFFD }, [2, 5, 4], by decide⟩⟩

/-- An answer lined up on each answering port. -/
theorem witness_answers_lined_up : ∃ s : State, s.env.randoms.head? = some 0xA7 ∧ s.env.collisions.head? = some true ∧
    s.env.presses.head? = some false ∧ s.env.keyWaits.head? = some (some 7) :=
  ⟨{ start with env := { Env.reset with randoms := [0xA7], collisions := [true], presses := [false], keyWaits := [some 7] } },
    by decide⟩

theorem witness_DrawSendsTheSpriteAndStoresTheAnswer : ∃ (s u : State) (n j : Nat), s.idx.toNat + n ≤ 4096 ∧ j < n ∧ n ≠ 0 ∧
    n < 16 ∧ 4096 < u.idx.toNat + n :=
  ⟨{ start with idx := 0xFF1 }, { start with idx := 0xFF2 }, 15, 14, by decide⟩

/-- A key wait answered none, and one answered with the highest key. -/
theorem witness_KeyWaitReexecutesUntilAKey : ∃ s u : State, s.env.keyWaits.head? = some none ∧
    u.env.keyWaits.head? = some (some 0xF) :=
  ⟨{ start with env := { Env.reset with keyWaits := [none] } }, { start with env := { Env.reset with keyWaits := [some 0xF] } },
    by decide⟩

theorem witness_OnlyCallOverflowsAndOnlyRetUnderflows :
    (∃ s t : State, s.run = .running ∧ exec (.call 0x300) s = .next t ∧ t.run = .fatal ∧ t.fault.code = 1 ∧ s.sp = 16) ∧
    (∃ s t : State, s.run = .running ∧ exec .ret s = .next t ∧ t.run = .fatal ∧ t.fault.code = 2 ∧ s.sp = 0) ∧
    (∃ s t : State, s.run = .running ∧ exec (.call 0x300) s = .next t ∧ t.run = .running ∧ s.sp = 15) :=
  ⟨⟨withStack 16 start, _, rfl, rfl, rfl, rfl, rfl⟩, ⟨start, _, rfl, rfl, rfl, rfl, rfl⟩,
    ⟨withStack 15 start, _, rfl, rfl, rfl, rfl⟩⟩

/-- A step that fetches out of bounds, one whose data access leaves memory, and one that just stays inside. -/
theorem witness_OutOfBoundsExactlyWhenAnAccessLeavesMemory :
    (∃ s t : State, s.env.moves = [] ∧ s.run = .running ∧ step s = .next t ∧ t.run = .fatal ∧ t.fault.code = 3 ∧
      0x0FFE < s.ip.toNat) ∧
    (∃ s t : State, s.env.moves = [] ∧ s.run = .running ∧ step s = .next t ∧ t.run = .fatal ∧ t.fault.code = 3 ∧
      s.ip.toNat = 0x0FFE) ∧
    (∃ s t : State, s.env.moves.head? = some (.cycle false) ∧ s.run = .running ∧ step s = .next t ∧ t.run = .running) :=
  ⟨⟨startAt 0xFFF, _, rfl, rfl, rfl, rfl, rfl, by decide⟩,
    ⟨{ withMem 0xFFE [0xF0, 0x33] (startAt 0xFFE) with idx := 0xFFE }, _, rfl, rfl, rfl, rfl, rfl, rfl⟩,
    ⟨withMoves [.cycle false] { withMem 0xFFE [0xF0, 0x65] (startAt 0xFFE) with idx := 0xFFF }, _, rfl, rfl, rfl, rfl⟩⟩

theorem witness_FatalConditionsArePrecise : ∃ s t : State, s.run = .running ∧ step s = .next t ∧ t.run = .fatal :=
  ⟨startAt 0x203, _, rfl, rfl, rfl⟩

/-- A running state with one live stack entry meets the invariant, and steps. -/
theorem witness_StepKeepsTheInvariant : (withStack 1 start).Inv ∧ ∃ t, step (withStack 1 start) = .next t := by
  refine ⟨⟨rfl, by decide, by decide, .inl rfl, by decide, .inr ⟨by decide, rfl⟩, fun h => ?_⟩, _, rfl⟩
  cases h

theorem witness_CFAndSTFlowIntoNothingElse : ∃ t, step { start with cf := 1, st := 9 } = .next t := ⟨_, rfl⟩

/-- A change of each cell, and of a general register. -/
theorem witness_OnlyTheListedInstructionsWriteEachCell :
    (∃ t, exec (.shl 2) (start.setV 2 0x80) = .next t ∧ t.cf ≠ (start.setV 2 0x80).cf ∧
      t.readV 2 ≠ (start.setV 2 0x80).readV 2) ∧
    (∃ t, exec (.ldI 0x300) start = .next t ∧ t.idx ≠ start.idx) ∧
    (∃ t, exec (.call 0x300) start = .next t ∧ t.sp ≠ start.sp ∧ t.stack ≠ start.stack) ∧
    (∃ t, exec (.ldDTVx 2) (start.setV 2 9) = .next t ∧ t.dt ≠ (start.setV 2 9).dt) ∧
    (∃ t, exec (.ldSTVx 2) (start.setV 2 9) = .next t ∧ t.st ≠ (start.setV 2 9).st) ∧
    (∃ t, exec (.ldB 2) (start.setV 2 9) = .next t ∧ t.mem ≠ (start.setV 2 9).mem) ∧
    (∃ t, exec .halt start = .next t ∧ t.run ≠ start.run) :=
  ⟨⟨_, rfl, by decide, by decide⟩, ⟨_, rfl, by decide⟩, ⟨_, rfl, by decide, by decide⟩, ⟨_, rfl, by decide⟩,
    ⟨_, rfl, by decide⟩, ⟨_, rfl, by decide⟩, ⟨_, rfl, by decide⟩⟩

/-- IDLE left; RUNNING left by HALT, by a stop, by an illegal fetch, by an instruction's own condition; a run that is over
left. -/
theorem witness_RunStateChangesOnlyAsTabled :
    (∃ t, step (withMoves [.start] State.reset) = .next t ∧ t.run ≠ State.reset.run) ∧
    (∃ t, step start = .next t ∧ t.run = .halted) ∧
    (∃ t, step (withMoves [.cycle true] start) = .next t ∧ t.run = .stopped) ∧
    (∃ t, step (startAt 0x0FFF) = .next t ∧ t.run = .fatal) ∧
    (∃ t, step (withMoves [.cycle false] (withMem 0x200 [0x00, 0xEE] start)) = .next t ∧ t.run = .fatal) ∧
    (∃ t, step (withMoves [.reset] (withRun .fatal start)) = .next t ∧ t.run ≠ .fatal ∧ (withRun .fatal start).Over) :=
  ⟨⟨_, rfl, by decide⟩, ⟨_, rfl, rfl⟩, ⟨_, rfl, rfl⟩, ⟨_, rfl, rfl⟩, ⟨_, rfl, rfl⟩, ⟨_, rfl, by decide, by decide⟩⟩

theorem witness_TimersRiseOnlyByAWrite : ∃ s u t v : State, step s = .next t ∧ s.dt.toNat < t.dt.toNat ∧
    step u = .next v ∧ u.st.toNat < v.st.toNat :=
  ⟨withMem 0x200 [0xF0, 0x15] (start.setV 0 1), withMem 0x200 [0xF0, 0x18] (start.setV 0 1), _, _, rfl, by decide, rfl,
    by decide⟩

theorem witness_OnlyJumpsAndCallsMakeIPOdd : start.Inv ∧ 0x200 ≤ start.ip.toNat ∧ start.ip.toNat ≤ 0xFFE ∧
    start.ip.toNat % 2 = 0 ∧ ∃ t, exec (.jp 0x203) start = .next t ∧ t.ip.toNat % 2 = 1 := by
  refine ⟨⟨rfl, by decide, by decide, .inl rfl, by decide, .inr ⟨by decide, rfl⟩, fun h => ?_⟩, by decide, by decide,
    by decide, _, rfl, by decide⟩
  cases h

theorem witness_EachStepTakesOneMoveAndOutputsOnlyGrow : ∃ t, step (withMoves [.cycle false] (withMem 0x200 [0x00, 0xE0] start)) = .next t ∧
    t.env.requests = [.displayClear] ∧ t.env.moves = [] := ⟨_, rfl, by decide, by decide⟩

end Sys2Proof.Tests
end

section
/-! What the decoder answers, for words of the address format and for the words no row of the opcode map selects
(30_encoding.md R84, R90). -/

namespace Sys2Proof

theorem bits_family_encodeA {op : Nat} (nnn : Addr) (h : op < 16) : bits (encodeA op nnn) 12 4 = op := by
  have := nnn.isLt
  apply bits_family
  rw [toNat_encodeA h]
  omega

theorem fieldNNN_encodeA {op : Nat} (nnn : Addr) (h : op < 16) : fieldNNN (encodeA op nnn) = nnn := by
  have := nnn.isLt
  apply fieldNNN_eq
  rw [toNat_encodeA h]
  omega

theorem decode_encode_jp (nnn : Addr) : decode (encode (.jp nnn)) = .jp nnn := by
  simp only [encode, decode, bits_family_encodeA, fieldNNN_encodeA, Nat.reduceLT]

theorem decode_encode_jpV0 (nnn : Addr) : decode (encode (.jpV0 nnn)) = .jpV0 nnn := by
  simp only [encode, decode, bits_family_encodeA, fieldNNN_encodeA, Nat.reduceLT]

/-- `w & 0xF000 == match`, field by field. -/
theorem and_F000_eq_iff_fields (w p : Word) :
    w &&& 0xF000 = p ↔ w.toNat / 4096 = p.toNat / 4096 ∧ p.toNat % 4096 = 0 := by
  rw [and_F000_eq_iff]
  omega

/-- `w & 0xF00F == match`, field by field. -/
theorem and_F00F_eq_iff_fields (w p : Word) :
    w &&& 0xF00F = p ↔ w.toNat / 4096 = p.toNat / 4096 ∧ w.toNat % 16 = p.toNat % 4096 := by
  rw [and_F00F_eq_iff]
  omega

/-- `w & 0xF0FF == match`, field by field. -/
theorem and_F0FF_eq_iff_fields (w p : Word) :
    w &&& 0xF0FF = p ↔ w.toNat / 4096 = p.toNat / 4096 ∧ w.toNat % 256 = p.toNat % 4096 := by
  rw [and_F0FF_eq_iff]
  omega

/-- A word that no row of the map selects is one of 30_encoding.md R90's. Read field by field, the rows of the word's own
family are what is left of the premise; in family 8 they leave seven low nibbles. -/
theorem isUnrecognizedWord_of_no_row {w : Word} (h : ∀ r ∈ opcodeMap, w &&& r.mask ≠ r.pattern) :
    isUnrecognizedWord w = true := by
  have hfam : w.toNat / 4096 < 16 := by have := w.isLt; omega
  have hlow : w.toNat % 16 < 16 := Nat.mod_lt _ (by decide)
  simp only [opcodeMap, opcodeMapLow, opcodeMapAlu, opcodeMapHigh, List.cons_append, List.nil_append, List.forall_mem_cons,
    List.not_mem_nil, false_implies, implies_true, and_true, ne_eq, and_F000_eq_iff_fields, and_F00F_eq_iff_fields,
    and_F0FF_eq_iff_fields, and_FFFF_eq_iff, BitVec.reduceToNat, Nat.reduceDiv, Nat.reduceMod] at h
  by_cases h8 : w.toNat / 4096 = 8
  · interval_cases hl : w.toNat % 16 <;> simp_all [isUnrecognizedWord]
  · interval_cases hf : w.toNat / 4096 <;> simp_all [isUnrecognizedWord]

/-- The words of 30_encoding.md R90 pass neither level of the decode procedure. -/
theorem decode_of_isUnrecognizedWord {w : Word} (h : isUnrecognizedWord w = true) : decode w = .unrecognized w := by
  simp only [isUnrecognizedWord, Bool.or_eq_true, Bool.and_eq_true, beq_iff_eq, bne_iff_ne, Bool.not_eq_true',
    List.contains_eq_mem, decide_eq_true_eq, decide_eq_false_iff_not, List.mem_cons, List.not_mem_nil, or_false, not_or] at h
  obtain ((((⟨hf, hlow⟩ | ⟨hf, hlow⟩) | ⟨hf, hlow⟩) | ⟨hf, hlow⟩) | ⟨hf, hlow⟩) | ⟨hf, hlow⟩ := h
  all_goals simp only [decode, bits_family hf]
  · simp [decodeFamily0, hlow]
  · simp [bits_low rfl, hlow]
  · rcases hlow with hl | hl | hl | hl | hl | hl | hl <;> simp only [decodeFamily8, bits_low hl]
  · simp [bits_low rfl, hlow]
  · simp [decodeFamilyE, bits_lowByte rfl, hlow]
  · simp [decodeFamilyF, bits_lowByte rfl, hlow]

end Sys2Proof
end

section
/-! What moving the instruction pointer leaves alone, and the two jumps and the catch-all of 40_system_control.md. -/

namespace Sys2Proof.Machine

@[simp] theorem toNat_addrWord (nnn : Addr) : (addrWord nnn).toNat = nnn.toNat := by
  have := nnn.isLt
  simp only [addrWord, BitVec.toNat_setWidth]
  omega

@[simp] theorem toNat_byteWord (b : Byte) : (byteWord b).toNat = b.toNat := by
  have := b.isLt
  simp only [byteWord, BitVec.toNat_setWidth]
  omega

/-- The largest offset on the largest base, 0xFFF + 0xFF, still fits in IP (10_state.md R26). -/
theorem toNat_addrWord_add_byteWord (nnn : Addr) (b : Byte) :
    (addrWord nnn + byteWord b).toNat = nnn.toNat + b.toNat := by
  have := nnn.isLt
  have := b.isLt
  rw [BitVec.toNat_add, toNat_addrWord, toNat_byteWord]
  omega

theorem frame_jump (a : Word) (s : State) : Frame {} s (s.jump a) := by
  constructor <;> intros <;> rfl

theorem frame_advance (s : State) : Frame {} s s.advance := frame_jump (s.ip + 2) s

@[simp] theorem exec_jp (nnn : Addr) (s : State) : exec (.jp nnn) s = .next (s.jump (addrWord nnn)) := rfl

@[simp] theorem exec_jpV0 (nnn : Addr) (s : State) :
    exec (.jpV0 nnn) s = .next (s.jump (addrWord nnn + byteWord (s.readV 0))) := rfl

@[simp] theorem exec_unrecognized (w : Word) (s : State) : exec (.unrecognized w) s = .next s.advance := rfl

/-- Settles O24: the words no row selects are the ones the decode procedure lets through, and the catch-all is an advance. -/
theorem unrecognizedWordsOnlyAdvance : Obligations.UnrecognizedWordsOnlyAdvance := fun w s =>
  ⟨fun hrows => decode_of_isUnrecognizedWord (isUnrecognizedWord_of_no_row hrows),
    s.advance, exec_unrecognized w s, advance_ip s, frame_advance s⟩

/-- Settles O23: both words are of the address format, and both instructions are one jump. -/
theorem jumpsSetIPAbsolutely : Obligations.JumpsSetIPAbsolutely := fun nnn s =>
  ⟨decode_encode_jp nnn, decode_encode_jpV0 nnn,
    ⟨_, exec_jp nnn s, toNat_addrWord nnn, frame_jump _ s⟩,
    ⟨_, exec_jpV0 nnn s, toNat_addrWord_add_byteWord nnn (s.readV 0), frame_jump _ s⟩⟩

end Sys2Proof.Machine
end

section
/-! What the decoder reads back from words of the formats RI and RR (30_encoding.md R82, R84), and the same words as
sums of their fields. -/

namespace Sys2Proof

theorem bits_family_encodeRI {op : Nat} (x : Reg) (kk : Byte) (h : op < 16) : bits (encodeRI op x kk) 12 4 = op := by
  have := x.isLt
  have := kk.isLt
  apply bits_family
  rw [toNat_encodeRI h]
  omega

theorem fieldX_encodeRI {op : Nat} (x : Reg) (kk : Byte) (h : op < 16) : fieldX (encodeRI op x kk) = x := by
  have := x.isLt
  have := kk.isLt
  apply fieldX_eq
  rw [toNat_encodeRI h]
  omega

theorem fieldKK_encodeRI {op : Nat} (x : Reg) (kk : Byte) (h : op < 16) : fieldKK (encodeRI op x kk) = kk := by
  have := kk.isLt
  apply fieldKK_eq
  rw [toNat_encodeRI h]
  omega

theorem bits_family_encodeRR {op f : Nat} (x y : Reg) (h : op < 16) (hf : f < 16) :
    bits (encodeRR op x y f) 12 4 = op := by
  have := x.isLt
  have := y.isLt
  apply bits_family
  rw [toNat_encodeRR h hf]
  omega

theorem bits_low_encodeRR {op f : Nat} (x y : Reg) (h : op < 16) (hf : f < 16) : bits (encodeRR op x y f) 0 4 = f := by
  apply bits_low
  rw [toNat_encodeRR h hf]
  omega

theorem fieldX_encodeRR {op f : Nat} (x y : Reg) (h : op < 16) (hf : f < 16) : fieldX (encodeRR op x y f) = x := by
  have := x.isLt
  have := y.isLt
  apply fieldX_eq
  rw [toNat_encodeRR h hf]
  omega

theorem fieldY_encodeRR {op f : Nat} (x y : Reg) (h : op < 16) (hf : f < 16) : fieldY (encodeRR op x y f) = y := by
  have := y.isLt
  apply fieldY_eq
  rw [toNat_encodeRR h hf]
  omega

theorem ofNat_eq_encodeRI (op : Nat) (x : Reg) (kk : Byte) :
    BitVec.ofNat 16 (op * 4096 + 256 * x.val + kk.toNat) = encodeRI op x kk := by
  rw [encodeRI, Nat.mul_comm 256]

theorem ofNat_eq_encodeRR (op f : Nat) (x y : Reg) :
    BitVec.ofNat 16 (op * 4096 + f + 256 * x.val + 16 * y.val) = encodeRR op x y f := by
  rw [encodeRR]
  congr 1
  omega

theorem decode_encode_seImm (x : Reg) (kk : Byte) : decode (encode (.seImm x kk)) = .seImm x kk := by
  simp only [encode, decode, bits_family_encodeRI, fieldX_encodeRI, fieldKK_encodeRI, Nat.reduceLT]

theorem decode_encode_sneImm (x : Reg) (kk : Byte) : decode (encode (.sneImm x kk)) = .sneImm x kk := by
  simp only [encode, decode, bits_family_encodeRI, fieldX_encodeRI, fieldKK_encodeRI, Nat.reduceLT]

theorem decode_encode_seReg (x y : Reg) : decode (encode (.seReg x y)) = .seReg x y := by
  simp only [encode, decode, bits_family_encodeRR, bits_low_encodeRR, fieldX_encodeRR, fieldY_encodeRR, Nat.reduceLT,
    if_true]

theorem decode_encode_sneReg (x y : Reg) : decode (encode (.sneReg x y)) = .sneReg x y := by
  simp only [encode, decode, bits_family_encodeRR, bits_low_encodeRR, fieldX_encodeRR, fieldY_encodeRR, Nat.reduceLT,
    if_true]

end Sys2Proof
end

section
/-! The skips of 41_skips.md: each one is `skipIf` on its own condition, and `skipIf` moves IP and nothing else (R124). -/

namespace Sys2Proof.Machine

theorem frame_skipIf (c : Bool) (s : State) : Frame {} s (s.skipIf c) := by
  constructor <;> intros <;> rfl

/-- Where `skipIf` goes, in terms of the proposition its Boolean decides. -/
theorem skipIf_ip_of_iff {c : Bool} {p : Prop} [Decidable p] (h : c = true ↔ p) (s : State) :
    (s.skipIf c).ip = if p then s.ip + 4 else s.ip + 2 := by
  simp only [skipIf_ip, h]

/-- An instruction that is a `skipIf` is taken exactly on its condition. -/
theorem exec_of_skipIf {i : Instr} {s : State} {c : Bool} {p : Prop} [Decidable p]
    (hi : exec i s = .next (s.skipIf c)) (hc : c = true ↔ p) :
    ∃ t, exec i s = .next t ∧ t.ip = (if p then s.ip + 4 else s.ip + 2) ∧ Frame {} s t :=
  ⟨_, hi, skipIf_ip_of_iff hc s, frame_skipIf c s⟩

@[simp] theorem exec_seImm (x : Reg) (kk : Byte) (s : State) :
    exec (.seImm x kk) s = .next (s.skipIf (s.readV x == kk)) := rfl

@[simp] theorem exec_sneImm (x : Reg) (kk : Byte) (s : State) :
    exec (.sneImm x kk) s = .next (s.skipIf (s.readV x != kk)) := rfl

@[simp] theorem exec_seReg (x y : Reg) (s : State) :
    exec (.seReg x y) s = .next (s.skipIf (s.readV x == s.readV y)) := rfl

@[simp] theorem exec_sneReg (x y : Reg) (s : State) :
    exec (.sneReg x y) s = .next (s.skipIf (s.readV x != s.readV y)) := rfl

/-- Settles O25: each word is its instruction's encoding, and each instruction is one `skipIf`, on `==` or on `!=`. -/
theorem skipsAreTakenExactlyOnTheirCondition : Obligations.SkipsAreTakenExactlyOnTheirCondition := fun x y kk s =>
  ⟨⟨(congrArg decode (ofNat_eq_encodeRI 0x3 x kk)).trans (decode_encode_seImm x kk),
      exec_of_skipIf (exec_seImm x kk s) beq_iff_eq⟩,
    ⟨(congrArg decode (ofNat_eq_encodeRI 0x4 x kk)).trans (decode_encode_sneImm x kk),
      exec_of_skipIf (exec_sneImm x kk s) bne_iff_ne⟩,
    ⟨(congrArg decode (ofNat_eq_encodeRR 0x5 0x0 x y)).trans (decode_encode_seReg x y),
      exec_of_skipIf (exec_seReg x y s) beq_iff_eq⟩,
    ⟨(congrArg decode (ofNat_eq_encodeRR 0x9 0x0 x y)).trans (decode_encode_sneReg x y),
      exec_of_skipIf (exec_sneReg x y s) bne_iff_ne⟩⟩

end Sys2Proof.Machine
end

section
/-! What the decoder answers for the words of 42_alu.md: loads and ADD with an immediate (format RI), and the rows of
family 8, which the low nibble selects (30_encoding.md R84); the two shifts do so for every `y` (R87). -/

namespace Sys2Proof

theorem decode_encode_ldImm (x : Reg) (kk : Byte) : decode (encode (.ldImm x kk)) = .ldImm x kk := by
  simp only [encode, decode, bits_family_encodeRI, fieldX_encodeRI, fieldKK_encodeRI, Nat.reduceLT]

theorem decode_encode_addImm (x : Reg) (kk : Byte) : decode (encode (.addImm x kk)) = .addImm x kk := by
  simp only [encode, decode, bits_family_encodeRI, fieldX_encodeRI, fieldKK_encodeRI, Nat.reduceLT]

/-- A word of family 8 is classified by the high nibble alone; which row it is stays with the low nibble. -/
theorem decode_encodeRR_family8 (x y : Reg) {f : Nat} (hf : f < 16) :
    decode (encodeRR 0x8 x y f) = decodeFamily8 (encodeRR 0x8 x y f) := by
  simp only [decode, bits_family_encodeRR x y (by decide : 0x8 < 16) hf]

/-- The seven rows of family 8 that name both registers. -/
theorem decode_encode_family8 (x y : Reg) :
    ∀ i ∈ [.ldReg x y, .orReg x y, .andReg x y, .xorReg x y, .addReg x y, .subReg x y, .subnReg x y],
      decode (encode i) = i := by
  simp only [List.forall_mem_cons, List.not_mem_nil, false_implies, implies_true, and_self, encode,
    decode_encodeRR_family8, decodeFamily8, bits_low_encodeRR, fieldX_encodeRR, fieldY_encodeRR, Nat.reduceLT]

theorem decode_encodeRR_shr (x y : Reg) : decode (encodeRR 0x8 x y 0x6) = .shr x := by
  simp only [decode_encodeRR_family8, decodeFamily8, bits_low_encodeRR, fieldX_encodeRR, Nat.reduceLT]

theorem decode_encodeRR_shl (x y : Reg) : decode (encodeRR 0x8 x y 0xE) = .shl x := by
  simp only [decode_encodeRR_family8, decodeFamily8, bits_low_encodeRR, fieldX_encodeRR, Nat.reduceLT]

end Sys2Proof
end

section
/-! The cell operations and flags of 42_alu.md as arithmetic on the bytes' values (R141, R142). -/

namespace Sys2Proof.Machine

@[simp] theorem toNat_cellAdd (a b : Byte) : (cellAdd a b).toNat = (a.toNat + b.toNat) % 256 := BitVec.toNat_add a b

/-- Over the integers, where `a - b` may be negative: R141's `a - b + 256` for `a < b`. -/
theorem toNat_cellSub (a b : Byte) : ((cellSub a b).toNat : Int) = (a.toNat - b.toNat : Int) % 256 := by
  have := a.isLt
  have := b.isLt
  rw [cellSub, BitVec.toNat_sub]
  omega

@[simp] theorem toNat_cellShr (a : Byte) : (cellShr a).toNat = a.toNat / 2 := by
  rw [cellShr, BitVec.toNat_ushiftRight, Nat.shiftRight_eq_div_pow, Nat.pow_one]

@[simp] theorem toNat_cellShl (a : Byte) : (cellShl a).toNat = 2 * a.toNat % 256 := by
  rw [cellShl, BitVec.toNat_shiftLeft, Nat.shiftLeft_eq, Nat.pow_one, Nat.mul_comm]

theorem borrowFlag_eq_ite (a b : Byte) : borrowFlag a b = if b.toNat > a.toNat then 0x01 else 0x00 := by
  simp only [borrowFlag, flagByte, decide_eq_true_eq]

/-- Masking with 1 keeps the remainder modulo 2. -/
theorem toNat_and_one (a : Byte) : (a &&& 1).toNat = a.toNat % 2 := by
  rw [BitVec.toNat_and, ← Nat.and_one_is_mod]
  rfl

@[simp] theorem toNat_shrFlag (a : Byte) : (shrFlag a).toNat = a.toNat % 2 := toNat_and_one a

/-- The top bit: what is left after dividing by 128 is 0 or 1 already. -/
@[simp] theorem toNat_shlFlag (a : Byte) : (shlFlag a).toNat = a.toNat / 128 := by
  have := a.isLt
  rw [shlFlag, toNat_and_one, BitVec.toNat_ushiftRight, Nat.shiftRight_eq_div_pow]
  omega

end Sys2Proof.Machine
end

section
/-! The two shapes of an instruction of 42_alu.md, `writeResult` and `writeResultFlag`: what each leaves alone, and which
instruction is which. -/

namespace Sys2Proof.Machine

theorem readV_writeResult_self (x : Reg) (r : Byte) (s : State) : (s.writeResult x r).readV x = r := by
  rw [readV_writeResult, if_pos rfl]

theorem readV_writeResultFlag_self (x : Reg) (r f : Byte) (s : State) : (s.writeResultFlag x r f).readV x = r := by
  rw [readV_writeResultFlag, if_pos rfl]

theorem frame_writeResult (x : Reg) (r : Byte) (s : State) : Frame { v := [x] } s (s.writeResult x r) := by
  constructor
  case v =>
    intro j hj
    rw [readV_writeResult, if_neg (List.mem_singleton.not.mp hj)]
  all_goals intros; rfl

/-- The flag is the one field more than `writeResult` touches. -/
theorem frame_writeResultFlag (x : Reg) (r f : Byte) (s : State) :
    Frame { v := [x], cf := true } s (s.writeResultFlag x r f) :=
  { frame_writeResult x r s with cf := nofun }

/-- What an instruction that is a `writeResult` does, with `P` what its statement says of the new `V[x]`. -/
theorem exec_of_writeResult {i : Instr} {x : Reg} {r : Byte} {s : State} {P : State → Prop}
    (hi : exec i s = .next (s.writeResult x r)) (hP : ∀ t, t.readV x = r → P t) :
    ∃ t, exec i s = .next t ∧ P t ∧ t.ip = s.ip + 2 ∧ Frame { v := [x] } s t :=
  ⟨_, hi, hP _ (readV_writeResult_self x r s), writeResult_ip x r s, frame_writeResult x r s⟩

/-- What an instruction that is a `writeResultFlag` does, with `P` and `Q` what its statement says of the new `V[x]` and
`CF`. -/
theorem exec_of_writeResultFlag {i : Instr} {x : Reg} {r f : Byte} {s : State} {P Q : State → Prop}
    (hi : exec i s = .next (s.writeResultFlag x r f)) (hP : ∀ t, t.readV x = r → P t) (hQ : ∀ t, t.cf = f → Q t) :
    ∃ t, exec i s = .next t ∧ P t ∧ Q t ∧ t.ip = s.ip + 2 ∧ Frame { v := [x], cf := true } s t :=
  ⟨_, hi, hP _ (readV_writeResultFlag_self x r f s), hQ _ (writeResultFlag_cf x r f s), writeResultFlag_ip x r f s,
    frame_writeResultFlag x r f s⟩

@[simp] theorem exec_ldImm (x : Reg) (kk : Byte) (s : State) : exec (.ldImm x kk) s = .next (s.writeResult x kk) := rfl

@[simp] theorem exec_ldReg (x y : Reg) (s : State) : exec (.ldReg x y) s = .next (s.writeResult x (s.readV y)) := rfl

@[simp] theorem exec_addImm (x : Reg) (kk : Byte) (s : State) :
    exec (.addImm x kk) s = .next (s.writeResult x (cellAdd (s.readV x) kk)) := rfl

@[simp] theorem exec_orReg (x y : Reg) (s : State) :
    exec (.orReg x y) s = .next (s.writeResult x (s.readV x ||| s.readV y)) := rfl

@[simp] theorem exec_andReg (x y : Reg) (s : State) :
    exec (.andReg x y) s = .next (s.writeResult x (s.readV x &&& s.readV y)) := rfl

@[simp] theorem exec_xorReg (x y : Reg) (s : State) :
    exec (.xorReg x y) s = .next (s.writeResult x (s.readV x ^^^ s.readV y)) := rfl

@[simp] theorem exec_subReg (x y : Reg) (s : State) :
    exec (.subReg x y) s =
      .next (s.writeResultFlag x (cellSub (s.readV x) (s.readV y)) (borrowFlag (s.readV x) (s.readV y))) := rfl

@[simp] theorem exec_shr (x : Reg) (s : State) :
    exec (.shr x) s = .next (s.writeResultFlag x (cellShr (s.readV x)) (shrFlag (s.readV x))) := rfl

@[simp] theorem exec_shl (x : Reg) (s : State) :
    exec (.shl x) s = .next (s.writeResultFlag x (cellShl (s.readV x)) (shlFlag (s.readV x))) := rfl

/-- Settles O26: each word is its instruction's encoding, and each load is one `writeResult`. -/
theorem loadsWriteVx : Obligations.LoadsWriteVx := fun x y kk s =>
  ⟨⟨(congrArg decode (ofNat_eq_encodeRI 0x6 x kk)).trans (decode_encode_ldImm x kk),
      exec_of_writeResult (exec_ldImm x kk s) fun _ ht => ht⟩,
    ⟨(congrArg decode (ofNat_eq_encodeRR 0x8 0x0 x y)).trans (decode_encode_family8 x y (.ldReg x y) (by simp)),
      exec_of_writeResult (exec_ldReg x y s) fun _ ht => ht⟩⟩

/-- Settles O27: the instruction writes the cell operation `add`, whose value is the sum modulo 256. -/
theorem addImmediateWrapsSilently : Obligations.AddImmediateWrapsSilently := fun x kk s =>
  ⟨(congrArg decode (ofNat_eq_encodeRI 0x7 x kk)).trans (decode_encode_addImm x kk),
    exec_of_writeResult (exec_addImm x kk s) fun _ ht => by rw [ht, toNat_cellAdd]⟩

/-- Settles O28: the byte written is the bitwise operation on the two old operands, so each of its bits is. -/
theorem bitwiseOperationsLeaveCF : Obligations.BitwiseOperationsLeaveCF := fun x y s =>
  ⟨⟨(congrArg decode (ofNat_eq_encodeRR 0x8 0x1 x y)).trans (decode_encode_family8 x y (.orReg x y) (by simp)),
      exec_of_writeResult (exec_orReg x y s) fun _ ht _ => by rw [ht, BitVec.getLsbD_or]⟩,
    ⟨(congrArg decode (ofNat_eq_encodeRR 0x8 0x2 x y)).trans (decode_encode_family8 x y (.andReg x y) (by simp)),
      exec_of_writeResult (exec_andReg x y s) fun _ ht _ => by rw [ht, BitVec.getLsbD_and]⟩,
    ⟨(congrArg decode (ofNat_eq_encodeRR 0x8 0x3 x y)).trans (decode_encode_family8 x y (.xorReg x y) (by simp)),
      exec_of_writeResult (exec_xorReg x y s) fun _ ht _ => by rw [ht, BitVec.getLsbD_xor]⟩⟩

/-- Settles O30: difference and borrow flag are both computed from the two old operands, so `x = y` and `x = F` are no
cases of their own. -/
theorem subtractFlagMeansBorrow : Obligations.SubtractFlagMeansBorrow := fun x y s =>
  ⟨(congrArg decode (ofNat_eq_encodeRR 0x8 0x5 x y)).trans (decode_encode_family8 x y (.subReg x y) (by simp)),
    exec_of_writeResultFlag (exec_subReg x y s) (fun _ ht => by rw [ht, toNat_cellSub])
      (fun _ hf => by rw [hf, borrowFlag_eq_ite])⟩

/-- Settles O32: the decoder drops `y`, the result is the shifted byte, and the flag is the bit that falls off its end. -/
theorem shiftsPutTheBitShiftedOutInCF : Obligations.ShiftsPutTheBitShiftedOutInCF := fun x y s =>
  ⟨⟨(congrArg decode (ofNat_eq_encodeRR 0x8 0x6 x y)).trans (decode_encodeRR_shr x y),
      exec_of_writeResultFlag (exec_shr x s) (fun _ ht => by rw [ht, toNat_cellShr])
        (fun _ hf => by rw [hf, toNat_shrFlag])⟩,
    ⟨(congrArg decode (ofNat_eq_encodeRR 0x8 0xE x y)).trans (decode_encodeRR_shl x y),
      exec_of_writeResultFlag (exec_shl x s) (fun _ ht => by rw [ht, toNat_cellShl])
        (fun _ hf => by rw [hf, toNat_shlFlag])⟩⟩

end Sys2Proof.Machine
end

section
/-! The word Annn of 43_index_memory.md: what the decoder reads back from it, and what writing the index register and
advancing leaves alone (R150). -/

namespace Sys2Proof

theorem decode_encode_ldI (nnn : Addr) : decode (encode (.ldI nnn)) = .ldI nnn := by
  simp only [encode, decode, bits_family_encodeA, fieldNNN_encodeA, Nat.reduceLT]

end Sys2Proof

namespace Sys2Proof.Machine

/-- The index register is the one field more than `advance` touches. -/
theorem frame_setI_advance (a : Word) (s : State) : Frame { idx := true } s (s.setI a).advance :=
  { frame_advance s with idx := nofun }

@[simp] theorem exec_ldI (nnn : Addr) (s : State) : exec (.ldI nnn) s = .next (s.setI (addrWord nnn)).advance := rfl

/-- Settles O33: the word is its instruction's encoding, and the instruction is one `setI` of the zero-extended address,
then an advance. -/
theorem loadIndexWritesI : Obligations.LoadIndexWritesI := fun nnn s =>
  ⟨decode_encode_ldI nnn, _, exec_ldI nnn s, toNat_addrWord nnn, advance_ip (s.setI (addrWord nnn)),
    frame_setI_advance (addrWord nnn) s⟩

end Sys2Proof.Machine
end

section
/-! Which instruction raises which fatal condition (60_exceptions.md R201, R202): an instruction run in RUNNING ends in FATAL
only by a `raise` of its own, and the record's code tells the raises apart. -/

namespace Sys2Proof.Machine

theorem exec_call_of_full (nnn : Addr) {s : State} (h : s.sp = 16) :
    exec (.call nnn) s = .next (raise .stackOverflow s.ip s) := if_pos h

theorem exec_ret_of_empty {s : State} (h : s.sp = 0) : exec .ret s = .next (raise .stackUnderflow s.ip s) := if_pos h

/-- An instruction that ends the run in FATAL raised one of its own fatal conditions on the state it was given. -/
theorem exec_fatal_cases {i : Instr} {s t : State} (hr : s.run = .running) (h : exec i s = .next t)
    (hf : t.run = .fatal) :
    ((∃ nnn, i = .call nnn) ∧ s.sp = 16 ∧ t = raise .stackOverflow s.ip s) ∨
    (i = .ret ∧ s.sp = 0 ∧ t = raise .stackUnderflow s.ip s) ∨
    (s.AccessLeavesMemory i ∧ t = raise .addressOutOfBounds s.idx s) := by
  obtain ⟨hrun, -⟩ | ⟨-, rfl⟩ | hraised := exec_run_cases h
  · rw [hrun, hr] at hf
    cases hf
  · cases hf
  · exact hraised

theorem exec_overflows_iff {i : Instr} {s t : State} (hr : s.run = .running) (h : exec i s = .next t) :
    (t.run = .fatal ∧ t.fault.code = 1) ↔ (∃ nnn, i = .call nnn) ∧ s.sp = 16 := by
  constructor
  · rintro ⟨hf, hcode⟩
    obtain ⟨hi, hsp, -⟩ | ⟨-, -, rfl⟩ | ⟨-, rfl⟩ := exec_fatal_cases hr h hf
    · exact ⟨hi, hsp⟩
    · exact absurd hcode (by decide : Condition.stackUnderflow.code ≠ 1)
    · exact absurd hcode (by decide : Condition.addressOutOfBounds.code ≠ 1)
  · rintro ⟨⟨nnn, rfl⟩, hsp⟩
    obtain rfl := Host.Outcome.next.inj ((exec_call_of_full nnn hsp).symm.trans h)
    exact ⟨rfl, rfl⟩

theorem exec_underflows_iff {i : Instr} {s t : State} (hr : s.run = .running) (h : exec i s = .next t) :
    (t.run = .fatal ∧ t.fault.code = 2) ↔ i = .ret ∧ s.sp = 0 := by
  constructor
  · rintro ⟨hf, hcode⟩
    obtain ⟨-, -, rfl⟩ | ⟨hi, hsp, -⟩ | ⟨-, rfl⟩ := exec_fatal_cases hr h hf
    · exact absurd hcode (by decide : Condition.stackOverflow.code ≠ 2)
    · exact ⟨hi, hsp⟩
    · exact absurd hcode (by decide : Condition.addressOutOfBounds.code ≠ 2)
  · rintro ⟨rfl, hsp⟩
    obtain rfl := Host.Outcome.next.inj ((exec_ret_of_empty hsp).symm.trans h)
    exact ⟨rfl, rfl⟩

/-- The two stack conditions record the instruction's IP; a data access records I instead, under a code of its own. -/
theorem exec_stack_fault_info {i : Instr} {s t : State} (hr : s.run = .running) (h : exec i s = .next t)
    (hf : t.run = .fatal) (hcode : t.fault.code = 1 ∨ t.fault.code = 2) : t.fault.info = s.ip := by
  obtain ⟨-, -, rfl⟩ | ⟨-, -, rfl⟩ | ⟨-, rfl⟩ := exec_fatal_cases hr h hf
  · rfl
  · rfl
  · exact absurd hcode (by decide : ¬ (Condition.addressOutOfBounds.code = 1 ∨ Condition.addressOutOfBounds.code = 2))

/-- Settles O46: CALL and RET raise the stack conditions, and the code each records is no other condition's. -/
theorem onlyCallOverflowsAndOnlyRetUnderflows : Obligations.OnlyCallOverflowsAndOnlyRetUnderflows :=
  fun _ _ _ hr h => ⟨exec_overflows_iff hr h, exec_underflows_iff hr h, exec_stack_fault_info hr h⟩

end Sys2Proof.Machine
end

section
/-! What the decoder reads back from the words of the remaining rows: CALL, RND and DRW, and format R of families E and F,
which the low byte selects (30_encoding.md R82, R84). -/

namespace Sys2Proof

theorem bits_family_encodeR {op sel : Nat} (x : Reg) (h : op < 16) (hs : sel < 256) :
    bits (encodeR op x sel) 12 4 = op := by
  have := x.isLt
  apply bits_family
  rw [toNat_encodeR h hs]
  omega

theorem bits_lowByte_encodeR {op sel : Nat} (x : Reg) (h : op < 16) (hs : sel < 256) :
    bits (encodeR op x sel) 0 8 = sel := by
  apply bits_lowByte
  rw [toNat_encodeR h hs]
  omega

theorem fieldX_encodeR {op sel : Nat} (x : Reg) (h : op < 16) (hs : sel < 256) : fieldX (encodeR op x sel) = x := by
  have := x.isLt
  apply fieldX_eq
  rw [toNat_encodeR h hs]
  omega

theorem fieldN_encodeRR {op : Nat} (x y : Reg) (n : Fin 16) (h : op < 16) : fieldN (encodeRR op x y n.val) = n := by
  apply fieldN_eq
  rw [toNat_encodeRR h n.isLt]
  omega

theorem ofNat_eq_encodeR (op sel : Nat) (x : Reg) :
    BitVec.ofNat 16 (op * 4096 + sel + 256 * x.val) = encodeR op x sel := by
  rw [encodeR]
  congr 1
  omega

theorem ofNat_eq_encodeRR_last (op : Nat) (x y : Reg) (n : Fin 16) :
    BitVec.ofNat 16 (op * 4096 + 256 * x.val + 16 * y.val + n.val) = encodeRR op x y n.val := by
  rw [encodeRR, Nat.mul_comm 256, Nat.mul_comm 16]

theorem decode_encode_call (nnn : Addr) : decode (encode (.call nnn)) = .call nnn := by
  simp only [encode, decode, bits_family_encodeA, fieldNNN_encodeA, Nat.reduceLT]

theorem decode_encode_rnd (x : Reg) (kk : Byte) : decode (encode (.rnd x kk)) = .rnd x kk := by
  simp only [encode, decode, bits_family_encodeRI, fieldX_encodeRI, fieldKK_encodeRI, Nat.reduceLT]

theorem decode_encode_drw (x y : Reg) (n : Fin 16) : decode (encode (.drw x y n)) = .drw x y n := by
  simp only [encode, decode, bits_family_encodeRR, fieldX_encodeRR, fieldY_encodeRR, fieldN_encodeRR, Fin.is_lt,
    Nat.reduceLT]

/-- The two rows of family E. -/
theorem decode_encode_familyE (x : Reg) : ∀ i ∈ [.skp x, .sknp x], decode (encode i) = i := by
  simp [encode, decode, decodeFamilyE, bits_family_encodeR, bits_lowByte_encodeR, fieldX_encodeR]

/-- The nine rows of family F. -/
theorem decode_encode_familyF (x : Reg) :
    ∀ i ∈ [.ldVxDT x, .ldVxK x, .ldDTVx x, .ldSTVx x, .addI x, .ldF x, .ldB x, .storeRegs x, .loadRegs x],
      decode (encode i) = i := by
  simp [encode, decode, decodeFamilyF, bits_family_encodeR, bits_lowByte_encodeR, fieldX_encodeR]

/-- Settles O2: constructor by constructor, the fields of the format read back the operands, and the selecting bits
the row. -/
theorem decodeOfEncodeIsTheInstruction : Obligations.DecodeOfEncodeIsTheInstruction := by
  intro i hi
  cases i with
  | halt | cls | ret => decide
  | jp nnn => exact decode_encode_jp nnn
  | call nnn => exact decode_encode_call nnn
  | seImm x kk => exact decode_encode_seImm x kk
  | sneImm x kk => exact decode_encode_sneImm x kk
  | seReg x y => exact decode_encode_seReg x y
  | ldImm x kk => exact decode_encode_ldImm x kk
  | addImm x kk => exact decode_encode_addImm x kk
  | ldReg x y | orReg x y | andReg x y | xorReg x y | addReg x y | subReg x y | subnReg x y =>
    exact decode_encode_family8 x y _ (by simp)
  | shr x => exact decode_encodeRR_shr x 0
  | shl x => exact decode_encodeRR_shl x 0
  | sneReg x y => exact decode_encode_sneReg x y
  | ldI nnn => exact decode_encode_ldI nnn
  | jpV0 nnn => exact decode_encode_jpV0 nnn
  | rnd x kk => exact decode_encode_rnd x kk
  | drw x y n => exact decode_encode_drw x y n
  | skp x | sknp x => exact decode_encode_familyE x _ (by simp)
  | ldVxDT x | ldVxK x | ldDTVx x | ldSTVx x | addI x | ldF x | ldB x | storeRegs x | loadRegs x =>
    exact decode_encode_familyF x _ (by simp)
  | unrecognized w => exact decode_of_isUnrecognizedWord hi

/-- Settles O1: the decode procedure evaluates on each of the words. -/
theorem specWordsDecodeAsListed : Obligations.SpecWordsDecodeAsListed := by
  unfold Obligations.SpecWordsDecodeAsListed
  decide

end Sys2Proof
end

section
/-! Every word, read and written back (30_encoding.md R82 to R90): a format's encoder puts the fields of a word where they
were read, a recognized word selects the row of its own instruction and no other. -/

namespace Sys2Proof

theorem encodeA_fieldNNN {w : Word} {op : Nat} (h : w.toNat / 4096 = op) : encodeA op (fieldNNN w) = w := by
  have := w.isLt
  apply BitVec.eq_of_toNat_eq
  simp only [encodeA, fieldNNN, bits, BitVec.toNat_ofNat]
  omega

theorem encodeRI_fields {w : Word} {op : Nat} (h : w.toNat / 4096 = op) : encodeRI op (fieldX w) (fieldKK w) = w := by
  have := w.isLt
  apply BitVec.eq_of_toNat_eq
  simp only [encodeRI, fieldX, fieldKK, bits, BitVec.toNat_ofNat]
  omega

theorem encodeRR_fields {w : Word} {op f : Nat} (h : w.toNat / 4096 = op) (hf : w.toNat % 16 = f) :
    encodeRR op (fieldX w) (fieldY w) f = w := by
  have := w.isLt
  apply BitVec.eq_of_toNat_eq
  simp only [encodeRR, fieldX, fieldY, bits, BitVec.toNat_ofNat]
  omega

theorem encodeR_fieldX {w : Word} {op sel : Nat} (h : w.toNat / 4096 = op) (hs : w.toNat % 256 = sel) :
    encodeR op (fieldX w) sel = w := by
  have := w.isLt
  apply BitVec.eq_of_toNat_eq
  simp only [encodeR, fieldX, bits, BitVec.toNat_ofNat]
  omega

/-- The word of a shift, written back with `y = 0`. -/
theorem toNat_encodeRR_fieldX {w : Word} {op f : Nat} (h : w.toNat / 4096 = op) (hf : w.toNat % 16 = f) :
    (encodeRR op (fieldX w) 0 f).toNat = w.toNat / 256 * 256 + w.toNat % 16 := by
  have := w.isLt
  simp only [encodeRR, fieldX, bits, BitVec.toNat_ofNat, Fin.val_zero]
  omega

/-- Whether a word is one of the two shifts, whose `y` field is ignored (30_encoding.md R87). -/
abbrev IsShiftWord (w : Word) : Prop := w.toNat / 4096 = 0x8 ∧ (w.toNat % 16 = 0x6 ∨ w.toNat % 16 = 0xE)

/-- What the decoder answers for a word outside 30_encoding.md R90's set: an instruction of the opcode map whose row the
word selects, and whose own word it is. -/
def ReadsBack (w : Word) (i : Instr) : Prop :=
  (∃ r, i.row? = some r ∧ r.selects w = true) ∧
    (encode i).toNat = if IsShiftWord w then w.toNat / 256 * 256 + w.toNat % 16 else w.toNat

open Laws.OpcodeRow (selects_F000 selects_F00F selects_F0FF)

/-- Outside the shifts the word comes back as it was. -/
theorem readsBack_of_encode {w : Word} {i : Instr} {r : OpRow} (hr : i.row? = some r) (hs : r.selects w = true)
    (hw : ¬ IsShiftWord w) (he : encode i = w) : ReadsBack w i :=
  ⟨⟨r, hr, hs⟩, by rw [if_neg hw, he]⟩

theorem readsBack_literal {w p : Word} {i : Instr} {m : String} (hr : i.row? = some ⟨0xFFFF, p, m⟩) (he : encode i = p)
    (hp : p.toNat / 4096 = 0) (hw : w.toNat = p.toNat) : ReadsBack w i :=
  readsBack_of_encode hr (beq_iff_eq.mpr ((and_FFFF_eq_iff w p).mpr hw)) (by rintro ⟨h8, -⟩; omega)
    (he.trans (BitVec.eq_of_toNat_eq hw.symm))

theorem readsBack_A {w p : Word} {i : Instr} {op : Nat} {m : String} (hf : w.toNat / 4096 = op) (h8 : op ≠ 0x8)
    (hr : i.row? = some ⟨0xF000, p, m⟩) (hp : p.toNat = op * 4096) (he : encode i = encodeA op (fieldNNN w)) :
    ReadsBack w i :=
  readsBack_of_encode hr (selects_F000 (by omega)) (fun h => h8 (hf.symm.trans h.1)) (he.trans (encodeA_fieldNNN hf))

theorem readsBack_RI {w p : Word} {i : Instr} {op : Nat} {m : String} (hf : w.toNat / 4096 = op) (h8 : op ≠ 0x8)
    (hr : i.row? = some ⟨0xF000, p, m⟩) (hp : p.toNat = op * 4096) (he : encode i = encodeRI op (fieldX w) (fieldKK w)) :
    ReadsBack w i :=
  readsBack_of_encode hr (selects_F000 (by omega)) (fun h => h8 (hf.symm.trans h.1)) (he.trans (encodeRI_fields hf))

theorem readsBack_RR {w p : Word} {i : Instr} {op f : Nat} {m : String} (hf : w.toNat / 4096 = op)
    (hl : w.toNat % 16 = f) (h8 : ¬ (op = 0x8 ∧ (f = 0x6 ∨ f = 0xE))) (hr : i.row? = some ⟨0xF00F, p, m⟩)
    (hp : p.toNat = op * 4096 + f) (he : encode i = encodeRR op (fieldX w) (fieldY w) f) : ReadsBack w i :=
  readsBack_of_encode hr (selects_F00F (by omega)) (by rintro ⟨h, h'⟩; omega) (he.trans (encodeRR_fields hf hl))

theorem readsBack_R {w p : Word} {i : Instr} {op sel : Nat} {m : String} (hf : w.toNat / 4096 = op)
    (hl : w.toNat % 256 = sel) (h8 : op ≠ 0x8) (hr : i.row? = some ⟨0xF0FF, p, m⟩) (hp : p.toNat = op * 4096 + sel)
    (he : encode i = encodeR op (fieldX w) sel) : ReadsBack w i :=
  readsBack_of_encode hr (selects_F0FF (by omega)) (fun h => h8 (hf.symm.trans h.1)) (he.trans (encodeR_fieldX hf hl))

/-- A shift's row fixes all but `x` and the ignored `y`. -/
theorem readsBack_shift {w p : Word} {i : Instr} {f : Nat} {m : String} (hf : w.toNat / 4096 = 0x8)
    (hl : w.toNat % 16 = f) (h8 : f = 0x6 ∨ f = 0xE) (hr : i.row? = some ⟨0xF00F, p, m⟩)
    (hp : p.toNat = 0x8 * 4096 + f) (he : encode i = encodeRR 0x8 (fieldX w) 0 f) : ReadsBack w i :=
  ⟨⟨_, hr, selects_F00F (by omega)⟩, by rw [if_pos ⟨hf, hl ▸ h8⟩, he, toNat_encodeRR_fieldX hf hl]⟩

/-- The second level of the decode procedure in family 8, on a low nibble that is listed. -/
theorem decodeFamily8_readsBack {w : Word} (hf : w.toNat / 4096 = 0x8) (h : isUnrecognizedWord w = false) :
    ReadsBack w (decodeFamily8 w) := by
  have hlisted : w.toNat % 16 = 0x6 ∨ w.toNat % 16 = 0xE ∨ w.toNat % 16 = 0x0 ∨ w.toNat % 16 = 0x1 ∨ w.toNat % 16 = 0x2 ∨
      w.toNat % 16 = 0x3 ∨ w.toNat % 16 = 0x4 ∨ w.toNat % 16 = 0x5 ∨ w.toNat % 16 = 0x7 := by
    simp [isUnrecognizedWord, hf] at h
    omega
  rcases hlisted with hl | hl | hl | hl | hl | hl | hl | hl | hl <;> simp only [decodeFamily8, bits_low hl]
  · exact readsBack_shift hf hl (by decide) rfl rfl rfl
  · exact readsBack_shift hf hl (by decide) rfl rfl rfl
  all_goals exact readsBack_RR hf hl (by decide) rfl rfl rfl

theorem decodeFamily0_readsBack {w : Word} (hf : w.toNat / 4096 = 0x0) (h : isUnrecognizedWord w = false) :
    ReadsBack w (decodeFamily0 w) := by
  unfold decodeFamily0
  split_ifs with h0 h1 h2
  · exact readsBack_literal rfl rfl rfl h0
  · exact readsBack_literal rfl rfl rfl h1
  · exact readsBack_literal rfl rfl rfl h2
  · simp [isUnrecognizedWord, hf, h0, h1, h2] at h

theorem bits_lowByte_eq (w : Word) : bits w 0 8 = w.toNat % 256 := bits_lowByte rfl

theorem decodeFamilyE_readsBack {w : Word} (hf : w.toNat / 4096 = 0xE) (h : isUnrecognizedWord w = false) :
    ReadsBack w (decodeFamilyE w) := by
  unfold decodeFamilyE
  rw [bits_lowByte_eq]
  split_ifs with h0 h1
  · exact readsBack_R hf h0 (by decide) rfl rfl rfl
  · exact readsBack_R hf h1 (by decide) rfl rfl rfl
  · simp [isUnrecognizedWord, hf, h0, h1] at h

theorem decodeFamilyF_readsBack {w : Word} (hf : w.toNat / 4096 = 0xF) (h : isUnrecognizedWord w = false) :
    ReadsBack w (decodeFamilyF w) := by
  unfold decodeFamilyF
  rw [bits_lowByte_eq]
  split_ifs
  case neg => simp_all [isUnrecognizedWord]
  all_goals exact readsBack_R hf (by assumption) (by decide) rfl rfl rfl

/-- The second level of families 5 and 9: the low nibble is 0. -/
theorem ite_low_zero_readsBack {w p : Word} {i : Instr} {op : Nat} {m : String} (hf : w.toNat / 4096 = op)
    (hl : w.toNat % 16 = 0) (h8 : op ≠ 0x8) (hr : i.row? = some ⟨0xF00F, p, m⟩) (hp : p.toNat = op * 4096)
    (he : encode i = encodeRR op (fieldX w) (fieldY w) 0) :
    ReadsBack w (if bits w 0 4 = 0 then i else .unrecognized w) := by
  rw [if_pos (bits_low hl)]
  exact readsBack_RR hf hl (fun h => h8 h.1) hr (by rw [hp, Nat.add_zero]) he

/-- The decode procedure, family by family in order, on every word outside 30_encoding.md R90's set. -/
theorem decode_readsBack {w : Word} (h : isUnrecognizedWord w = false) : ReadsBack w (decode w) := by
  have hfam : w.toNat / 4096 < 16 := by have := w.isLt; omega
  interval_cases hf : w.toNat / 4096 <;> simp only [decode, bits_family hf]
  · exact decodeFamily0_readsBack hf h
  · exact readsBack_A hf (by decide) rfl rfl rfl
  · exact readsBack_A hf (by decide) rfl rfl rfl
  · exact readsBack_RI hf (by decide) rfl rfl rfl
  · exact readsBack_RI hf (by decide) rfl rfl rfl
  · exact ite_low_zero_readsBack hf (by simpa [isUnrecognizedWord, hf] using h) (by decide) rfl rfl rfl
  · exact readsBack_RI hf (by decide) rfl rfl rfl
  · exact readsBack_RI hf (by decide) rfl rfl rfl
  · exact decodeFamily8_readsBack hf h
  · exact ite_low_zero_readsBack hf (by simpa [isUnrecognizedWord, hf] using h) (by decide) rfl rfl rfl
  · exact readsBack_A hf (by decide) rfl rfl rfl
  · exact readsBack_A hf (by decide) rfl rfl rfl
  · exact readsBack_RI hf (by decide) rfl rfl rfl
  · exact readsBack_of_encode rfl (selects_F000 (by rw [hf]; rfl)) (by omega)
      (encodeRR_fields hf (by simp [fieldN, bits]))
  · exact decodeFamilyE_readsBack hf h
  · exact decodeFamilyF_readsBack hf h

/-- The set of 30_encoding.md R90, written out in arithmetic. -/
theorem isUnrecognizedWord_iff (w : Word) : isUnrecognizedWord w = true ↔
    (w.toNat / 4096 = 0x0 ∧ w.toNat ≠ 0x0000 ∧ w.toNat ≠ 0x00E0 ∧ w.toNat ≠ 0x00EE) ∨
    (w.toNat / 4096 = 0x5 ∧ w.toNat % 16 ≠ 0) ∨
    (w.toNat / 4096 = 0x8 ∧ 0x8 ≤ w.toNat % 16 ∧ w.toNat % 16 ≠ 0xE) ∨
    (w.toNat / 4096 = 0x9 ∧ w.toNat % 16 ≠ 0) ∨
    (w.toNat / 4096 = 0xE ∧ w.toNat % 256 ≠ 0x9E ∧ w.toNat % 256 ≠ 0xA1) ∨
    (w.toNat / 4096 = 0xF ∧ w.toNat % 256 ∉ [0x07, 0x0A, 0x15, 0x18, 0x1E, 0x29, 0x33, 0x55, 0x65]) := by
  have hlow : w.toNat % 16 ∈ [0x8, 0x9, 0xA, 0xB, 0xC, 0xD, 0xF] ↔ 0x8 ≤ w.toNat % 16 ∧ w.toNat % 16 ≠ 0xE := by
    simp only [List.mem_cons, List.not_mem_nil, or_false]
    omega
  simp only [isUnrecognizedWord, Bool.or_eq_true, Bool.and_eq_true, beq_iff_eq, bne_iff_ne, Bool.not_eq_true',
    List.contains_eq_mem, decide_eq_true_eq, decide_eq_false_iff_not, hlow, or_assoc]
  simp

/-- No listed word is in 30_encoding.md R90's set. -/
theorem decode_eq_unrecognized_iff (w : Word) : decode w = .unrecognized w ↔ isUnrecognizedWord w = true := by
  refine ⟨fun hd => ?_, decode_of_isUnrecognizedWord⟩
  by_contra h
  obtain ⟨⟨r, hr, -⟩, -⟩ := decode_readsBack (Bool.eq_false_of_not_eq_true h)
  rw [hd] at hr
  cases hr

/-- Settles O5: the decoder's catch-all and the enumeration are the same set of words. -/
theorem unrecognizedWordsAreTheEnumeratedOnes : Obligations.UnrecognizedWordsAreTheEnumeratedOnes := fun w =>
  (decode_eq_unrecognized_iff w).trans (isUnrecognizedWord_iff w)

theorem not_isShiftWord_of_isUnrecognizedWord {w : Word} (h : isUnrecognizedWord w = true) : ¬ IsShiftWord w := by
  rw [isUnrecognizedWord_iff] at h
  rintro ⟨h8, hl⟩
  omega

theorem wf_of_row {i : Instr} {r : OpRow} (hr : i.row? = some r) : i.wf = true := by
  cases i with
  | unrecognized w => cases hr
  | _ => rfl

/-- Settles O3: an unrecognized word carries itself, and every other word reads back. -/
theorem encodeOfDecodeKeepsEveryUsedBit : Obligations.EncodeOfDecodeKeepsEveryUsedBit := by
  intro w
  cases h : isUnrecognizedWord w with
  | true =>
    rw [decode_of_isUnrecognizedWord h, if_neg (not_isShiftWord_of_isUnrecognizedWord h)]
    exact ⟨h, rfl⟩
  | false =>
    obtain ⟨⟨r, hr, -⟩, he⟩ := decode_readsBack h
    exact ⟨wf_of_row hr, he⟩

/-- Two rows a word selects agree in every bit both fix. -/
theorem patterns_agree {w : Word} {r r' : OpRow} (h : w &&& r.mask = r.pattern) (h' : w &&& r'.mask = r'.pattern) :
    r.mask &&& r'.mask &&& (r.pattern ^^^ r'.pattern) = 0 := by
  rw [← h, ← h', show (0 : Word) = 0#16 from rfl]
  ext k hk
  simp only [BitVec.getElem_and, BitVec.getElem_xor, BitVec.getElem_zero]
  cases w[k] <;> cases r.mask[k] <;> cases r'.mask[k] <;> rfl

/-- A row of the map that a word selects is the only one it selects. -/
theorem filter_opcodeMap_of_selects {w : Word} {r : OpRow} (hr : r ∈ opcodeMap) (hs : w &&& r.mask = r.pattern) :
    (opcodeMap.filter fun r => w &&& r.mask == r.pattern) = [r] := by
  obtain ⟨before, after, hsplit⟩ := List.append_of_mem hr
  have hdisj := Laws.OpcodeRow.rows_disjoint
  rw [hsplit, List.pairwise_append, List.pairwise_cons] at hdisj
  obtain ⟨-, ⟨hafter, -⟩, hbefore⟩ := hdisj
  have hb : (before.filter fun r => w &&& r.mask == r.pattern) = [] :=
    List.filter_eq_nil_iff.mpr fun r' hr' hs' =>
      hbefore r' hr' r List.mem_cons_self (patterns_agree (beq_iff_eq.mp hs') hs)
  have ha : (after.filter fun r => w &&& r.mask == r.pattern) = [] :=
    List.filter_eq_nil_iff.mpr fun r' hr' hs' => hafter r' hr' (patterns_agree hs (beq_iff_eq.mp hs'))
  rw [hsplit, List.filter_append, List.filter_cons, if_pos (beq_iff_eq.mpr hs), hb, ha, List.nil_append]

/-- Settles O4: an unrecognized word selects no row; any other selects its own, and the rows are disjoint. -/
theorem everyWordSelectsExactlyItsOpcodeRow : Obligations.EveryWordSelectsExactlyItsOpcodeRow := by
  intro w
  cases h : isUnrecognizedWord w with
  | true =>
    have hnone : (opcodeMap.filter fun r => w &&& r.mask == r.pattern) = [] :=
      List.filter_eq_nil_iff.mpr fun r hr => by
        have := (Laws.OpcodeRow.unrecognized w h).2 rfl r hr
        exact Bool.eq_false_iff.mp this
    rw [decode_of_isUnrecognizedWord h, hnone]
    rfl
  | false =>
    obtain ⟨⟨r, hr, hs⟩, -⟩ := decode_readsBack h
    have hlisted : (decode w).isUnrecognized = false := by
      cases hd : decode w with
      | unrecognized w' => rw [hd] at hr; cases hr
      | _ => rfl
    have hm : r.mnemonic = (decode w).mnemonic := by simpa using List.find?_some hr
    rw [filter_opcodeMap_of_selects (List.mem_of_find?_eq_some hr) (beq_iff_eq.mp hs), hlisted]
    simp [hm]

end Sys2Proof
end

section
/-! The remaining instructions of 42_alu.md: ADD and SUBN with registers, and that a shift does not touch the register its
ignored field names (R87). -/

namespace Sys2Proof.Machine

theorem addFlag_eq_ite (a b : Byte) : addFlag a b = if a.toNat + b.toNat ≤ 255 then 0x01 else 0x00 := by
  simp only [addFlag, flagByte, decide_eq_true_eq]

@[simp] theorem exec_addReg (x y : Reg) (s : State) :
    exec (.addReg x y) s =
      .next (s.writeResultFlag x (cellAdd (s.readV x) (s.readV y)) (addFlag (s.readV x) (s.readV y))) := rfl

@[simp] theorem exec_subnReg (x y : Reg) (s : State) :
    exec (.subnReg x y) s =
      .next (s.writeResultFlag x (cellSub (s.readV y) (s.readV x)) (borrowFlag (s.readV y) (s.readV x))) := rfl

/-- Settles O29: sum and flag are both computed from the two old operands. -/
theorem addRegisterFlagMeansNoOverflow : Obligations.AddRegisterFlagMeansNoOverflow := fun x y s =>
  ⟨(congrArg decode (ofNat_eq_encodeRR 0x8 0x4 x y)).trans (decode_encode_family8 x y (.addReg x y) (by simp)),
    exec_of_writeResultFlag (exec_addReg x y s) (fun _ ht => by rw [ht, toNat_cellAdd])
      (fun _ hf => by rw [hf, addFlag_eq_ite])⟩

/-- Settles O31: SUB with the operands exchanged, the result still into `V[x]`. -/
theorem reverseSubtractFlagMeansBorrow : Obligations.ReverseSubtractFlagMeansBorrow := fun x y s =>
  ⟨(congrArg decode (ofNat_eq_encodeRR 0x8 0x7 x y)).trans (decode_encode_family8 x y (.subnReg x y) (by simp)),
    exec_of_writeResultFlag (exec_subnReg x y s) (fun _ ht => by rw [ht, toNat_cellSub])
      (fun _ hf => by rw [hf, borrowFlag_eq_ite])⟩

/-- Writes to two different registers commute, whatever else the instruction writes. -/
theorem writeResultFlag_setV_comm {x y : Reg} (h : y ≠ x) (r f b : Byte) (s : State) :
    (s.setV y b).writeResultFlag x r f = (s.writeResultFlag x r f).setV y b := by
  have hv : (s.v.set y.val b).set x.val r = (s.v.set x.val r).set y.val b :=
    Vector.set_comm b r fun e => h (Fin.ext e)
  simp only [State.writeResultFlag, State.setV, State.setCF, State.advance, hv]

/-- Settles O6: the decoder drops `y`, and the shift reads and writes `V[x]` alone. -/
theorem shiftsIgnoreTheYField : Obligations.ShiftsIgnoreTheYField := by
  intro x y
  refine ⟨(congrArg decode (ofNat_eq_encodeRR 0x8 0x6 x y)).trans (decode_encodeRR_shr x y),
    (congrArg decode (ofNat_eq_encodeRR 0x8 0xE x y)).trans (decode_encodeRR_shl x y), fun i s b hi hxy => ?_⟩
  have hx : (s.setV y b).readV x = s.readV x := readV_setV_ne y x b s hxy.symm
  rcases hi with rfl | rfl
  · exact ⟨_, exec_shr x s, by rw [readV_writeResultFlag, if_neg hxy],
      by rw [exec_shr, hx, writeResultFlag_setV_comm hxy]⟩
  · exact ⟨_, exec_shl x s, by rw [readV_writeResultFlag, if_neg hxy],
      by rw [exec_shl, hx, writeResultFlag_setV_comm hxy]⟩

end Sys2Proof.Machine
end

section
/-! The frame of no change, the stack (10_state.md R28), and the system instructions of 40_system_control.md that are no
jump. -/

namespace Sys2Proof.Machine

theorem frame_refl (s : State) : Frame {} s s := by
  constructor <;> intros <;> rfl

@[simp] theorem exec_cls (s : State) : exec .cls s = .next (s.send .displayClear).advance := rfl

/-- Settles O19: one `send`, then an advance. -/
theorem clsSendsOneClearRequest : Obligations.ClsSendsOneClearRequest :=
  ⟨by decide, fun s => ⟨_, exec_cls s, advance_ip _, send_env .displayClear s, { frame_advance s with env := nofun }⟩⟩

theorem exec_ret_of_live {s : State} {k : Fin 16} (h : s.sp.toNat = k.val + 1) :
    exec .ret s = .next (State.jump (s.readSlot k) { s with sp := s.sp - 1 }) := by
  have h0 : s.sp ≠ 0 := fun e => by rw [e] at h; exact absurd h (by simp)
  have hk : s.stack[s.sp.toNat - 1]'(by omega) = s.readSlot k := by simp only [State.readSlot, h, Nat.add_sub_cancel]
  have hle : 1 ≤ s.sp.toNat ∧ s.sp.toNat ≤ 16 := by omega
  show execRet s = _
  simp only [execRet, if_neg h0, pop_of_le hle, hk]

theorem exec_call_of_free (nnn : Addr) {s : State} (h : s.sp.toNat < 16) :
    exec (.call nnn) s = .next (State.jump (addrWord nnn)
      { s with stack := s.stack.set s.sp.toNat (s.ip + 2) h, sp := s.sp + 1 }) := by
  have h0 : s.sp ≠ 16 := fun e => by rw [e] at h; exact absurd h (by decide)
  show execCall nnn s = _
  simp only [execCall, if_neg h0, push_of_lt h]

theorem exec_ret_of_illegal {s : State} (h : 16 < s.sp.toNat) : exec .ret s = .fault .stackPointerIllegal := by
  have h0 : s.sp ≠ 0 := fun e => by rw [e] at h; exact absurd h (by decide)
  show execRet s = _
  simp only [execRet, if_neg h0, pop_of_not (show ¬ (1 ≤ s.sp.toNat ∧ s.sp.toNat ≤ 16) by omega)]

theorem exec_call_of_illegal (nnn : Addr) {s : State} (h : 16 < s.sp.toNat) :
    exec (.call nnn) s = .fault .stackPointerIllegal := by
  have h0 : s.sp ≠ 16 := fun e => by rw [e] at h; exact absurd h (by decide)
  show execCall nnn s = _
  simp only [execCall, if_neg h0, push_of_le (show 16 ≤ s.sp.toNat by omega)]

/-- Settles O22: neither `push` nor `pop` finds a slot. -/
theorem stackPointerAboveSixteenStops : Obligations.StackPointerAboveSixteenStops := fun _ h =>
  ⟨exec_ret_of_illegal h, fun nnn => exec_call_of_illegal nnn h⟩

/-- SP is at an empty stack, above a live entry, or beyond the stack. -/
theorem sp_cases (s : State) : s.sp = 0 ∨ (∃ k : Fin 16, s.sp.toNat = k.val + 1) ∨ 16 < s.sp.toNat := by
  by_cases h0 : s.sp.toNat = 0
  · exact .inl (BitVec.eq_of_toNat_eq h0)
  · rcases Nat.lt_or_ge 16 s.sp.toNat with hgt | hle
    · exact .inr (.inr hgt)
    · exact .inr (.inl ⟨⟨s.sp.toNat - 1, by omega⟩, (Nat.succ_pred h0).symm⟩)

theorem toNat_sub_one {b : Byte} {k : Nat} (h : b.toNat = k + 1) : (b - 1).toNat = k := by
  bv_omega

theorem toNat_add_one {b : Byte} (h : b.toNat < 255) : (b + 1).toNat = b.toNat + 1 := by
  bv_omega

/-- Settles O20: an empty stack is the raise, a live one is `pop` into IP. -/
theorem retPopsIntoIP : Obligations.RetPopsIntoIP :=
  ⟨by decide, fun s => ⟨exec_ret_of_empty, fun k hk =>
    ⟨_, exec_ret_of_live hk, toNat_sub_one hk, rfl, { frame_jump (s.readSlot k) s with sp := nofun }⟩⟩⟩

/-- The slot a push writes, and every other one. -/
theorem readSlot_push {s : State} (a : Word) (k : Fin 16) (h : s.sp.toNat < 16) (n : Byte) :
    ({ s with stack := s.stack.set s.sp.toNat a h, sp := n } : State).readSlot k =
      if k.val = s.sp.toNat then a else s.readSlot k := by
  simp only [State.readSlot, Vector.getElem_set, eq_comm]

/-- Settles O21: a full stack is the raise, any other is `push` of the return address and a jump. -/
theorem callPushesAndJumps : Obligations.CallPushesAndJumps := by
  refine fun nnn s => ⟨decode_encode_call nnn, fun h => exec_call_of_full nnn (BitVec.eq_of_toNat_eq h), fun k hk => ?_⟩
  have hlt : s.sp.toNat < 16 := by omega
  refine ⟨_, exec_call_of_free nnn hlt, ?_, ?_, toNat_addrWord nnn, ?_⟩
  · rw [jump_readSlot, readSlot_push, if_pos hk.symm]
  · exact (toNat_add_one (by omega)).trans (by rw [hk])
  · refine { frame_jump (addrWord nnn) s with sp := nofun, slots := fun j hj => ?_ }
    rw [jump_readSlot, readSlot_push, if_neg (hk ▸ List.mem_singleton.not.mp hj)]

end Sys2Proof.Machine
end

section
/-! The index register (43_index_memory.md R151, R152) and the timers (44_timers_random_io.md R170 to R172). -/

namespace Sys2Proof.Machine

@[simp] theorem exec_addI (x : Reg) (s : State) :
    exec (.addI x) s = .next (s.setI (s.idx + byteWord (s.readV x))).advance := rfl

@[simp] theorem exec_ldF (x : Reg) (s : State) :
    exec (.ldF x) s = .next (s.setI (fontAddress s.env.fontBase (s.readV x))).advance := rfl

/-- Settles O34: a 16-bit sum, so modulo 65536. -/
theorem addIndexWrapsAtSixteenBits : Obligations.AddIndexWrapsAtSixteenBits := fun x s =>
  ⟨(congrArg decode (ofNat_eq_encodeR 0xF 0x1E x)).trans (decode_encode_familyF x (.addI x) (by simp)),
    _, exec_addI x s, (BitVec.toNat_add _ _).trans (by rw [toNat_byteWord]), advance_ip _, frame_setI_advance _ s⟩

/-- Masking with 0x0F keeps the low nibble, and the largest font address is 432 + 5 * 15. -/
theorem toNat_fontAddress (base : Config.FontBase) (b : Byte) :
    (fontAddress base b).toNat = base.val + 5 * (b.toNat % 16) := by
  have hn : (b &&& 0x0F).toNat = b.toNat % 16 := by
    rw [BitVec.toNat_and]
    exact Nat.and_two_pow_sub_one_eq_mod b.toNat 4
  have := base.isLt
  simp only [fontAddress, Config.fontStride, BitVec.toNat_ofNat, hn]
  omega

/-- Settles O35: FONT_BASE is at most 432, so that the last sprite ends at 0x200 or below. -/
theorem fontAddressOfTheLowNibble : Obligations.FontAddressOfTheLowNibble := by
  refine fun x s => ⟨(congrArg decode (ofNat_eq_encodeR 0xF 0x29 x)).trans (decode_encode_familyF x (.ldF x) (by simp)),
    _, exec_ldF x s, toNat_fontAddress _ _, ?_, advance_ip _, frame_setI_advance _ s⟩
  have := s.env.fontBase.isLt
  rw [advance_idx, setI_idx, toNat_fontAddress]
  omega

@[simp] theorem exec_ldVxDT (x : Reg) (s : State) : exec (.ldVxDT x) s = .next (s.writeResult x s.dt) := rfl

@[simp] theorem exec_ldDTVx (x : Reg) (s : State) : exec (.ldDTVx x) s = .next (s.setDT (s.readV x)).advance := rfl

@[simp] theorem exec_ldSTVx (x : Reg) (s : State) : exec (.ldSTVx x) s = .next (s.setST (s.readV x)).advance := rfl

/-- Settles O41: one byte moved, then an advance. -/
theorem timerInstructionsMoveBytes : Obligations.TimerInstructionsMoveBytes := fun x s =>
  ⟨⟨(congrArg decode (ofNat_eq_encodeR 0xF 0x07 x)).trans (decode_encode_familyF x (.ldVxDT x) (by simp)),
      exec_of_writeResult (exec_ldVxDT x s) fun _ ht => ht⟩,
    ⟨(congrArg decode (ofNat_eq_encodeR 0xF 0x15 x)).trans (decode_encode_familyF x (.ldDTVx x) (by simp)),
      _, exec_ldDTVx x s, rfl, advance_ip _, { frame_advance s with dt := nofun }⟩,
    ⟨(congrArg decode (ofNat_eq_encodeR 0xF 0x18 x)).trans (decode_encode_familyF x (.ldSTVx x) (by simp)),
      _, exec_ldSTVx x s, rfl, advance_ip _, { frame_advance s with st := nofun }⟩⟩

end Sys2Proof.Machine
end

section
/-! The instructions of 43_index_memory.md that access memory (R153 to R156): inside memory a block is stored or loaded,
out of range AddressOutOfBounds(I) is raised on the state as it was. -/

namespace Sys2Proof.Machine

theorem exec_ldB (x : Reg) (s : State) : exec (.ldB x) s = .next (s.storeAtI (bcdDigits (s.readV x))) := rfl

theorem exec_storeRegs (x : Reg) (s : State) : exec (.storeRegs x) s = .next (s.storeAtI (s.readVBlock x)) := rfl

theorem exec_loadRegs_of_le {x : Reg} {s : State} (h : s.idx.toNat + (x.val + 1) ≤ 4096) :
    exec (.loadRegs x) s = .next (s.setVBlock (s.mem.readList s.idx.toNat (x.val + 1))).advance := by
  show execLoadRegs x s = _
  simp only [execLoadRegs, State.dataAddress, memRead_of_le h]

theorem exec_drw_of_le {x y : Reg} {n : Fin 16} {s : State} (h : n.val = 0 ∨ s.idx.toNat + n.val ≤ 4096) :
    exec (.drw x y n) s = .next ((s.afterDraw (s.readV x) (s.readV y) (s.mem.readList s.idx.toNat n.val)).setCF
      (collisionFlag s.drawAnswer)).advance := by
  show execDrw x y n s = _
  simp only [execDrw, readSprite_of_le h]

/-- A data access that leaves memory is the raise, whichever instruction presents it (60_exceptions.md R203). -/
theorem exec_of_accessLeavesMemory {i : Instr} {s : State} (h : s.AccessLeavesMemory i) :
    exec i s = .next (raise .addressOutOfBounds s.idx s) := by
  obtain ⟨x, rfl, hb⟩ | ⟨x, rfl | rfl, hb⟩ | ⟨x, y, n, rfl, hn, hb⟩ := h
  · rw [exec_ldB, storeAtI_of_gt (by simpa using hb)]
  · rw [exec_storeRegs, storeAtI_of_gt (by rw [length_readVBlock]; omega)]
  · show execLoadRegs x s = _
    simp only [execLoadRegs, State.dataAddress, memRead_of_gt (show 4096 < s.idx.toNat + (x.val + 1) by omega)]
  · show execDrw x y n s = _
    simp only [execDrw, readSprite_of_gt (by omega) hb]

theorem readByte_storeAtI_inside {bs : List Byte} {s : State} {j : Nat} {b : Byte} (hw : s.mem.wf = true)
    (h : s.idx.toNat + bs.length ≤ 4096) (hb : bs[j]? = some b) : (s.storeAtI bs).readByte (s.idx.toNat + j) = b := by
  rw [readByte_storeAtI hw h, State.byteAfterStore, if_pos (Nat.le_add_right _ _), Nat.add_sub_cancel_left, hb]
  rfl

theorem storeAtI_ip {bs : List Byte} {s : State} (h : s.idx.toNat + bs.length ≤ 4096) :
    (s.storeAtI bs).ip = s.ip + 2 := by rw [storeAtI_of_le h]

/-- A store inside memory changes the bytes it covers and IP. -/
theorem frame_storeAtI {bs : List Byte} {s : State} (h : s.idx.toNat + bs.length ≤ 4096) :
    Frame { bytes := (s.idx.toNat, bs.length) } s (s.storeAtI bs) := by
  rw [storeAtI_of_le h]
  exact { frame_advance s with bytes := fun a ha => Memory.read_writeList_outside ha }

/-- Settles O36: the three digits are the bytes of one store at I. -/
theorem bcdStoresThreeDigits : Obligations.BcdStoresThreeDigits := by
  refine fun x s => ⟨(congrArg decode (ofNat_eq_encodeR 0xF 0x33 x)).trans (decode_encode_familyF x (.ldB x) (by simp)),
    fun hw h => ?_, fun h => exec_of_accessLeavesMemory (.inl ⟨x, rfl, h⟩)⟩
  have := (s.readV x).isLt
  have hl : s.idx.toNat + (bcdDigits (s.readV x)).length ≤ 4096 := h
  refine ⟨_, exec_ldB x s, ?_, ?_, ?_, storeAtI_ip hl, frame_storeAtI hl⟩
  · rw [← Nat.add_zero s.idx.toNat, readByte_storeAtI_inside hw hl rfl, BitVec.toNat_ofNat]
    omega
  · rw [readByte_storeAtI_inside hw hl rfl, BitVec.toNat_ofNat]
    omega
  · rw [readByte_storeAtI_inside hw hl rfl, BitVec.toNat_ofNat]
    omega

theorem readVBlock_fits {x : Reg} {s : State} (h : s.idx.toNat + (x.val + 1) ≤ 4096) :
    s.idx.toNat + (s.readVBlock x).length ≤ 4096 := by rwa [length_readVBlock]

/-- Settles O37: the block V[0] to V[x] is the bytes of one store at I. -/
theorem storeRegistersWritesTheBlock : Obligations.StoreRegistersWritesTheBlock := by
  refine fun x s => ⟨(congrArg decode (ofNat_eq_encodeR 0xF 0x55 x)).trans
    (decode_encode_familyF x (.storeRegs x) (by simp)),
    fun hw h => ?_, fun h => exec_of_accessLeavesMemory (.inr (.inl ⟨x, .inl rfl, h⟩))⟩
  have hl := readVBlock_fits h
  refine ⟨_, exec_storeRegs x s, fun j hj => readByte_storeAtI_inside hw hl (getElem_readVBlock s x j hj),
    storeAtI_ip hl, ?_⟩
  rw [← length_readVBlock s x]
  exact frame_storeAtI hl

/-- After a block load, a register of the block holds its byte and any other what it held. -/
theorem readV_setVBlock_readList (m : Memory) (a : Nat) (x j : Reg) (s : State) :
    (s.setVBlock (m.readList a (x.val + 1))).readV j = if j ≤ x then m.read (a + j.val) else s.readV j := by
  rw [readV_setVBlock]
  split
  · next hj =>
    rw [Memory.getElem_readList m a _ _ (Nat.lt_succ_of_le (Fin.le_def.mp hj))]
    rfl
  · next hj =>
    have : x.val + 1 ≤ j.val := Fin.lt_def.mp (Fin.not_le.mp hj)
    rw [List.getElem?_eq_none (by rwa [Memory.length_readList])]
    rfl

/-- A block load inside memory changes V[0] to V[x] and IP. -/
theorem frame_setVBlock_readList (m : Memory) (a : Nat) (x : Reg) (s : State) :
    Frame { v := (List.finRange 16).filter (fun j => j ≤ x) } s (s.setVBlock (m.readList a (x.val + 1))).advance := by
  constructor
  case v =>
    intro j hj
    have hj' : ¬ j ≤ x := fun hle => hj (List.mem_filter.mpr ⟨List.mem_finRange j, decide_eq_true hle⟩)
    rw [advance_readV, readV_setVBlock_readList, if_neg hj']
  all_goals simp

/-- Settles O38: the block load writes V[0] to V[x], each from its own byte. -/
theorem loadRegistersReadsTheBlock : Obligations.LoadRegistersReadsTheBlock := by
  refine fun x s => ⟨(congrArg decode (ofNat_eq_encodeR 0xF 0x65 x)).trans
    (decode_encode_familyF x (.loadRegs x) (by simp)),
    fun h => ?_, fun h => exec_of_accessLeavesMemory (.inr (.inl ⟨x, .inr rfl, h⟩))⟩
  refine ⟨_, exec_loadRegs_of_le h, fun j hj => ?_, by rw [advance_ip, setVBlock_ip],
    frame_setVBlock_readList s.mem s.idx.toNat x s⟩
  rw [advance_readV, readV_setVBlock_readList, if_pos hj]
  rfl

/-- Settles O39: what the store put at `I + j` is what the load reads there. -/
theorem storeThenLoadReturnsTheRegisters : Obligations.StoreThenLoadReturnsTheRegisters := by
  intro x s hw h
  refine ⟨_, exec_storeRegs x s, fun u hmem hidx => ?_⟩
  refine ⟨_, exec_loadRegs_of_le (by rwa [hidx]), fun j hj => ?_⟩
  rw [advance_readV, readV_setVBlock_readList, if_pos hj, hmem, hidx]
  exact readByte_storeAtI_inside hw (readVBlock_fits h) (getElem_readVBlock s x j hj)

/-- The word fetched after a store inside memory is made of the bytes the store left. -/
theorem storeAtI_thenFetch {bs : List Byte} {s : State} (hw : s.mem.wf = true) (hlegal : s.FetchLegal)
    (h : s.idx.toNat + bs.length ≤ 4096) :
    (s.storeAtI bs).run = s.run ∧ (s.storeAtI bs).ip.toNat = s.ip.toNat + 2 ∧
      (s.storeAtI bs).fetchWord.toNat = (s.byteAfterStore bs (s.ip.toNat + 2)).toNat * 256 +
        (s.byteAfterStore bs (s.ip.toNat + 3)).toNat := by
  have hip : (s.storeAtI bs).ip.toNat = s.ip.toNat + 2 := by
    obtain ⟨-, hle, -⟩ := hlegal
    rw [storeAtI_ip h]
    bv_omega
  refine ⟨by rw [storeAtI_of_le h], hip, ?_⟩
  rw [State.fetchWord, toNat_wordOfBytes, hip, readByte_storeAtI hw h, readByte_storeAtI hw h]

/-- A list with the values of the three digits is the list LD B stores. -/
theorem eq_bcdDigits_of_map_toNat {bytes : List Byte} {b : Byte}
    (h : bytes.map (fun c => c.toNat) = [b.toNat / 100, b.toNat / 10 % 10, b.toNat % 10]) : bytes = bcdDigits b := by
  have := b.isLt
  refine List.map_injective_iff.mpr (fun _ _ => BitVec.eq_of_toNat_eq) (h.trans ?_)
  simp only [bcdDigits, List.map_cons, List.map_nil, BitVec.toNat_ofNat, List.cons.injEq, and_true]
  omega

/-- A list with the stored registers in their places is the list LD [I] stores. -/
theorem eq_readVBlock_of_getElem {bytes : List Byte} {x : Reg} {s : State} (hl : bytes.length = x.val + 1)
    (h : ∀ j : Reg, j ≤ x → bytes[j.val]? = some (s.readV j)) : bytes = s.readVBlock x := by
  refine List.ext_getElem? fun k => ?_
  by_cases hk : k ≤ x.val
  · have hj : (⟨k, by omega⟩ : Reg) ≤ x := hk
    exact (h _ hj).trans (getElem_readVBlock s x _ hj).symm
  · rw [List.getElem?_eq_none (by omega), List.getElem?_eq_none (by rw [length_readVBlock]; omega)]

/-- Settles O40: both instructions are one store at I, and the fetch reads the bytes it left. -/
theorem storeIsSeenByTheVeryNextFetch : Obligations.StoreIsSeenByTheVeryNextFetch := by
  intro i bytes s hw hlegal hi h
  obtain ⟨x, rfl, hdigits⟩ | ⟨x, rfl, hlen, hblock⟩ := hi
  · obtain rfl := eq_bcdDigits_of_map_toNat hdigits
    exact ⟨_, exec_ldB x s, storeAtI_thenFetch hw hlegal h⟩
  · obtain rfl := eq_readVBlock_of_getElem hlen hblock
    exact ⟨_, exec_storeRegs x s, storeAtI_thenFetch hw hlegal h⟩

end Sys2Proof.Machine
end

section
/-! The port instructions of 44_timers_random_io.md (R173 to R178): one request, the answer lined up or any, and what the
answer is written to. -/

namespace Sys2Proof.Machine

/-- An answer lined up is the one received. -/
theorem head?_getD_of_eq_some {α : Type} {l : List α} {a free : α} (h : l.head? = some a) : l.head?.getD free = a := by
  rw [h]
  rfl

@[simp] theorem exec_rnd (x : Reg) (kk : Byte) (s : State) :
    exec (.rnd x kk) s = .next (s.afterRandom.writeResult x (s.randomAnswer &&& kk)) := rfl

/-- Settles O42: the question, then one `writeResult` of the masked answer. -/
theorem randomByteIsMasked : Obligations.RandomByteIsMasked := fun x kk s =>
  ⟨(congrArg decode (ofNat_eq_encodeRI 0xC x kk)).trans (decode_encode_rnd x kk),
    _, s.randomAnswer, exec_rnd x kk s, readV_writeResult_self x _ _, fun _ h => head?_getD_of_eq_some h,
    writeResult_ip x _ _, afterRandom_env s, { frame_writeResult x _ s.afterRandom with env := nofun }⟩

theorem collisionFlag_eq_ite (c : Bool) : collisionFlag c = if c then 0x01 else 0x00 := rfl

/-- Settles O43: the sprite is the bytes read at I, the answer goes to CF; out of range it is the raise. -/
theorem drawSendsTheSpriteAndStoresTheAnswer : Obligations.DrawSendsTheSpriteAndStoresTheAnswer := fun x y n s =>
  ⟨(congrArg decode (ofNat_eq_encodeRR_last 0xD x y n)).trans (decode_encode_drw x y n),
    fun h => ⟨_, s.mem.readList s.idx.toNat n.val, s.drawAnswer, exec_drw_of_le h, Memory.length_readList _ _ _,
      fun j hj => Memory.getElem_readList _ _ _ j hj, collisionFlag_eq_ite _, fun _ hc => head?_getD_of_eq_some hc,
      advance_ip _, afterDraw_env _ _ _ s, { frame_advance s with cf := nofun, env := nofun }⟩,
    fun hn h => exec_of_accessLeavesMemory (.inr (.inr ⟨x, y, n, rfl, Nat.pos_of_ne_zero hn, h⟩))⟩

@[simp] theorem exec_skp (x : Reg) (s : State) :
    exec (.skp x) s = .next ((s.afterPressed (s.readV x)).skipIf s.pressedAnswer) := rfl

@[simp] theorem exec_sknp (x : Reg) (s : State) :
    exec (.sknp x) s = .next ((s.afterPressed (s.readV x)).skipIf (!s.pressedAnswer)) := rfl

theorem frame_afterPressed_skipIf (k : Byte) (c : Bool) (s : State) :
    Frame { env := true } s ((s.afterPressed k).skipIf c) :=
  { frame_skipIf c s with env := nofun }

/-- Settles O44: the same question and answer, and `skipIf` on it or on its negation. -/
theorem keySkipsFollowTheAnswer : Obligations.KeySkipsFollowTheAnswer := by
  refine fun x s => ⟨(congrArg decode (ofNat_eq_encodeR 0xE 0x9E x)).trans (decode_encode_familyE x (.skp x) (by simp)),
    (congrArg decode (ofNat_eq_encodeR 0xE 0xA1 x)).trans (decode_encode_familyE x (.sknp x) (by simp)),
    _, _, s.pressedAnswer, exec_skp x s, exec_sknp x s, fun _ h => head?_getD_of_eq_some h, skipIf_ip _ _, ?_,
    afterPressed_env _ s, rfl, frame_afterPressed_skipIf _ _ s, frame_afterPressed_skipIf _ _ s⟩
  rw [skipIf_ip, afterPressed_ip]
  cases s.pressedAnswer <;> rfl

theorem exec_ldVxK_of_none {x : Reg} {s : State} (h : s.keyWaitAnswer = none) :
    exec (.ldVxK x) s = .next s.afterKeyWait := by
  show execLdVxK x s = _
  simp only [execLdVxK, h]

theorem exec_ldVxK_of_some {x : Reg} {k : Key} {s : State} (h : s.keyWaitAnswer = some k) :
    exec (.ldVxK x) s = .next (s.afterKeyWait.writeResult x (keyByte k)) := by
  show execLdVxK x s = _
  simp only [execLdVxK, h, State.writeResult]

theorem toNat_keyByte (k : Key) : (keyByte k).toNat = k.val := by
  have := k.isLt
  rw [keyByte, BitVec.toNat_ofNat]
  omega

theorem frame_afterKeyWait (s : State) : Frame { env := true } s s.afterKeyWait :=
  { frame_refl s with env := nofun }

/-- Settles O45: the question alone on the answer `none`, a `writeResult` of the key's number beside it on a key. -/
theorem keyWaitReexecutesUntilAKey : Obligations.KeyWaitReexecutesUntilAKey := by
  refine fun x s => ⟨(congrArg decode (ofNat_eq_encodeR 0xF 0x0A x)).trans
    (decode_encode_familyF x (.ldVxK x) (by simp)), ?_⟩
  cases h : s.keyWaitAnswer with
  | none =>
    exact ⟨_, none, exec_ldVxK_of_none h, fun _ hk => h.symm.trans (head?_getD_of_eq_some hk), afterKeyWait_env s,
      fun _ => ⟨afterKeyWait_ip s, frame_afterKeyWait s⟩, nofun⟩
  | some k =>
    refine ⟨_, some k, exec_ldVxK_of_some h, fun _ hk => h.symm.trans (head?_getD_of_eq_some hk), afterKeyWait_env s,
      nofun, fun key hkey => ?_⟩
    obtain rfl := Option.some.inj hkey
    exact ⟨by rw [readV_writeResult_self, toNat_keyByte], writeResult_ip x _ _,
      { frame_writeResult x (keyByte k) s.afterKeyWait with env := nofun }⟩

end Sys2Proof.Machine
end

section
/-! One step, move by move: the core's cycle with its fetch checks (70_reset_and_hazards.md R249, 20_memory.md R57), the
tick (60_exceptions.md R216) and the host's moves (70_reset_and_hazards.md R240 to R246). -/

namespace Sys2Proof.Machine

/-- The state with the next move taken off the list. -/
abbrev State.taken (s : State) : State := s.setMoves s.env.moves.tail

theorem taken_of_nil {s : State} (h : s.env.moves = []) : s.taken = s := by
  rw [State.taken, show s.env.moves.tail = s.env.moves by rw [h]; rfl]
  rfl

/-- A cycle whose fetch check fails raises that condition, with IP. -/
theorem step_of_condition {s : State} {c : Condition} (h : s.AtCycle) (hc : fetchCheck s.ip = some c) :
    step s = .next (raise c s.ip s.taken) := by
  rw [step_of_atCycle h]
  exact cycle_of_condition h.1 hc

/-- A cycle at a legal fetch address runs the instruction fetched, traced first. -/
theorem step_of_fetch {s : State} (h : s.AtCycle) (hlegal : s.FetchLegal) :
    step s = exec (decode s.fetchWord) (s.taken.emitTrace s.fetchWord) := by
  rw [step_of_atCycle h]
  exact cycle_of_fetch h.1 (fetchCheck_none_iff.mpr hlegal)

/-- Settles O7: two bytes decode as the word they make, and that word is the one fetched. -/
theorem stepRunsTheDecodedInstruction : Obligations.StepRunsTheDecodedInstruction := by
  intro s rest i hm hr hlo hhi heven hd
  have hi : decode s.fetchWord = i := congrArg Prod.fst (Except.ok.inj hd)
  have hrest : s.env.moves.tail = rest := by
    rcases hm with ⟨h, rfl⟩ | h <;> rw [h] <;> rfl
  have hc : s.AtCycle := ⟨hr, hm.imp And.left fun h => by rw [h]; rfl⟩
  rw [step_of_fetch hc ⟨hlo, hhi, heven⟩, State.emitTrace, hi, ← hrest]
  rfl

theorem fetchCheck_of_high {ip : Word} (h : 0x0FFE < ip.toNat) : fetchCheck ip = some .addressOutOfBounds := if_pos h

theorem fetchCheck_of_low {ip : Word} (h : ip.toNat < 0x0200) : fetchCheck ip = some .reservedFetch := by
  rw [fetchCheck, if_neg (by omega), if_pos h]

theorem fetchCheck_of_odd {ip : Word} (hlo : 0x0200 ≤ ip.toNat) (hhi : ip.toNat ≤ 0x0FFE) (h : ip.toNat % 2 = 1) :
    fetchCheck ip = some .misalignedFetch := by
  rw [fetchCheck, if_neg (by omega), if_neg (by omega), if_pos h]

/-- Settles O8: the four clauses are the four outcomes of the fetch check. -/
theorem fetchChecksComeInOrder : Obligations.FetchChecksComeInOrder := fun s hm hr =>
  have hc : s.AtCycle := ⟨hr, hm⟩
  ⟨fun h => step_of_condition hc (fetchCheck_of_high h),
    fun h => step_of_condition hc (fetchCheck_of_low h),
    fun hlo hhi h => step_of_condition hc (fetchCheck_of_odd hlo hhi h),
    fun hlo hhi h => ⟨s.fetchWord, toNat_wordOfBytes _ _, step_of_fetch hc ⟨hlo, hhi, h⟩⟩⟩

/-- Settles O9: the stop level is the first thing a running cycle looks at. -/
theorem stopIsSampledBeforeTheFetch : Obligations.StopIsSampledBeforeTheFetch := fun s rest hm hr =>
  ⟨_, (step_of_cons hm).trans (cycle_of_stop (s := s.setMoves rest) hr), rfl, rfl, rfl,
    { frame_refl s with run := nofun, env := nofun }⟩

theorem tick_of_not_running {s : State} (h : s.run ≠ .running) : s.tick = s := if_neg h

theorem tick_of_running {s : State} (h : s.run = .running) :
    s.tick = { s with dt := timerTick s.dt, st := timerTick s.st } := if_pos h

theorem takeMove_tick (s : State) : takeMove .tick s = .next s.tick := rfl

/-- Outside RUNNING a cycle that is due changes nothing. -/
theorem step_of_not_running {s : State} (hr : s.run ≠ .running) (hm : s.env.moves = []) : step s = .next s :=
  (step_of_nil hm).trans (cycle_of_not_running hr)

/-- Settles O10: `cycle` and `tick` both look at RUN first. -/
theorem nothingChangesUnlessRunning : Obligations.NothingChangesUnlessRunning := by
  refine fun s hr => ⟨step_of_not_running hr, fun m rest hm hmove => ?_⟩
  have hr' : (s.setMoves rest).run ≠ .running := hr
  rw [step_of_cons hm]
  rcases hmove with rfl | rfl | rfl
  · exact cycle_of_not_running hr'
  · exact cycle_of_not_running hr'
  · rw [takeMove_tick, tick_of_not_running hr']
    rfl

theorem timerTick_of_ne_zero {b : Byte} (h : b ≠ 0x00) : (timerTick b).toNat + 1 = b.toNat := by
  rw [timerTick, if_neg h]
  bv_omega

theorem timerTick_of_zero {b : Byte} (h : b = 0x00) : timerTick b = 0x00 := if_pos h

theorem timerTick_le (b : Byte) : (timerTick b).toNat ≤ b.toNat := by
  by_cases h : b = 0x00
  · rw [timerTick_of_zero h]
    exact Nat.zero_le _
  · exact Nat.le_of_succ_le (timerTick_of_ne_zero h).le

/-- Settles O11: one `timerTick` for each timer. -/
theorem tickCountsBothTimersDown : Obligations.TickCountsBothTimersDown := by
  intro s rest hm hr
  have hstep := step_of_cons hm
  rw [takeMove_tick, tick_of_running (s := s.setMoves rest) hr] at hstep
  exact ⟨_, hstep, timerTick_of_ne_zero, timerTick_of_zero, timerTick_of_ne_zero, timerTick_of_zero, rfl, rfl,
    { frame_refl s with dt := nofun, st := nofun, env := nofun }⟩

@[simp] theorem reset_readV (j : Reg) : State.reset.readV j = 0x00 := Vector.getElem_replicate _

@[simp] theorem reset_readSlot (k : Fin 16) : State.reset.readSlot k = 0x0000 := Vector.getElem_replicate _

@[simp] theorem reset_readByte (a : Nat) : State.reset.readByte a = 0x00 := rfl

/-- Settles O16: register by register, slot by slot, byte by byte. -/
theorem resetStateHoldsTheSpecsValues : Obligations.ResetStateHoldsTheSpecsValues :=
  ⟨reset_readV, rfl, rfl, rfl, rfl, rfl, rfl, reset_readSlot, reset_readByte, rfl, rfl, rfl⟩

/-- Settles O12: the host's Reset is the reset state with the environment's side kept. -/
theorem resetMoveRestoresEveryResetValue : Obligations.ResetMoveRestoresEveryResetValue := fun _ _ hm =>
  ⟨_, step_of_cons hm, reset_readV, rfl, rfl, rfl, rfl, rfl, rfl, reset_readSlot, reset_readByte, rfl, rfl, rfl⟩

theorem takeMove_loadRom {bytes : List Byte} {s : State} (h : s.run = .idle) :
    takeMove (.loadRom bytes) s = .next (s.loadRom bytes) := if_pos h

theorem takeMove_start {s : State} (h : s.run = .idle) : takeMove .start s = .next s.start := if_pos h

theorem length_romBytes (bytes : List Byte) : (bytes.take Config.romMax).length = min bytes.length 3584 := by
  rw [List.length_take, Nat.min_comm]

/-- The bytes kept fit between 0x200 and the end of memory. -/
theorem romBytes_fit (bytes : List Byte) : Config.progBase + (bytes.take Config.romMax).length ≤ 4096 := by
  rw [length_romBytes]
  exact Nat.add_le_add_left (Nat.min_le_right _ _) 0x200

theorem readByte_loadRom_inside {bytes : List Byte} {s : State} {j : Nat} (hw : s.mem.wf = true)
    (hj : j < min bytes.length 3584) : bytes[j]? = some ((s.loadRom bytes).readByte (0x200 + j)) := by
  have hj' : j < (bytes.take Config.romMax).length := by rwa [length_romBytes]
  have hlen : j < bytes.length := Nat.lt_of_lt_of_le hj (Nat.min_le_left _ _)
  rw [List.getElem?_eq_getElem hlen]
  exact congrArg some ((Memory.read_writeList_inside hw (romBytes_fit bytes) hj').trans List.getElem_take).symm

theorem frame_loadRom (bytes : List Byte) (s : State) :
    Frame { bytes := (0x200, min bytes.length 3584) } s (s.loadRom bytes) :=
  { frame_refl s with
    bytes := fun _ ha => Memory.read_writeList_outside (by rwa [length_romBytes]) }

/-- Settles O13: one block write of the bytes kept. -/
theorem loadRomCopiesUpToCapacity : Obligations.LoadRomCopiesUpToCapacity := fun s bytes rest hm hr hw =>
  ⟨_, (step_of_cons hm).trans (takeMove_loadRom (s := s.setMoves rest) hr),
    fun _ hj => readByte_loadRom_inside (s := s.setMoves rest) hw hj, rfl, rfl,
    { frame_loadRom bytes (s.setMoves rest) with env := nofun }⟩

/-- Settles O14: Start writes IP and RUN. -/
theorem startSeedsIPAndRuns : Obligations.StartSeedsIPAndRuns := fun s rest hm hr =>
  ⟨_, (step_of_cons hm).trans (takeMove_start (s := s.setMoves rest) hr), rfl, rfl, rfl,
    { frame_refl s with run := nofun, env := nofun }⟩

/-- Settles O15: both moves look at RUN first. -/
theorem loadRomAndStartAreRefusedOutsideIdle : Obligations.LoadRomAndStartAreRefusedOutsideIdle := by
  intro s m rest hm hr hmove
  have hr' : (s.setMoves rest).run ≠ .idle := hr
  rw [step_of_cons hm]
  rcases hmove with rfl | ⟨bytes, rfl⟩
  · exact if_neg hr'
  · exact if_neg hr'

/-- Settles O17: LoadRom keeps the machine in IDLE, so that Start follows, and Start leaves the image alone. -/
theorem bootLeadsToTheLaunchState : Obligations.BootLeadsToTheLaunchState := fun bytes =>
  ⟨(State.reset.setMoves [.start]).loadRom bytes, ((State.reset.setMoves []).loadRom bytes).start,
    (step_of_cons rfl).trans (takeMove_loadRom rfl),
    (step_of_cons rfl).trans (takeMove_start (s := (State.reset.setMoves []).loadRom bytes) rfl), rfl, rfl,
    fun _ hj => readByte_loadRom_inside (s := State.reset) rfl hj, rfl,
    { frame_loadRom bytes State.reset with run := nofun }⟩

@[simp] theorem exec_halt (s : State) : exec .halt s = .next { s with run := .halted } := rfl

theorem fetchWord_of_zero {s : State} (hhi : s.readByte s.ip.toNat = 0x00) (hlo : s.readByte (s.ip.toNat + 1) = 0x00) :
    s.fetchWord = 0x0000 := by
  rw [State.fetchWord, hhi, hlo]
  rfl

/-- Settles O18: HALT leaves RUNNING, so that the next cycle changes nothing; two zero bytes are its word. -/
theorem haltEndsTheRunInPlace : Obligations.HaltEndsTheRunInPlace := by
  refine fun s => ⟨_, exec_halt s, rfl, rfl, { frame_refl s with run := nofun },
    step_of_not_running (s := { s with run := .halted }) nofun, fun hm hr hlo hhi heven hb hb' => ?_⟩
  rw [step_of_fetch ⟨hr, .inl hm⟩ ⟨hlo, hhi, heven⟩, fetchWord_of_zero hb hb', taken_of_nil hm]
  rfl

end Sys2Proof.Machine
end

section
/-! What an instruction can do, said once (10_state.md sections 1 to 9): one constructor of `Effect` for each way the
instructions write the state, with the instructions that write it so; then what that means for each cell. -/

namespace Sys2Proof

/-- The writers of CF (10_state.md R22). -/
abbrev Instr.WritesCF (i : Instr) : Prop :=
  (∃ x y, i = .addReg x y ∨ i = .subReg x y ∨ i = .subnReg x y) ∨ (∃ x, i = .shr x ∨ i = .shl x) ∨
    ∃ x y n, i = .drw x y n

/-- The writers of I (10_state.md R24). -/
abbrev Instr.WritesI (i : Instr) : Prop := (∃ nnn, i = .ldI nnn) ∨ ∃ x, i = .addI x ∨ i = .ldF x

/-- The writers of `V[j]` (10_state.md R20). -/
abbrev Instr.WritesV (j : Reg) (i : Instr) : Prop :=
  (∃ kk, i = .ldImm j kk ∨ i = .addImm j kk ∨ i = .rnd j kk) ∨
  (∃ y, i = .ldReg j y ∨ i = .orReg j y ∨ i = .andReg j y ∨ i = .xorReg j y ∨ i = .addReg j y ∨ i = .subReg j y ∨
    i = .subnReg j y) ∨
  i = .shr j ∨ i = .shl j ∨ i = .ldVxDT j ∨ i = .ldVxK j ∨ ∃ x, j ≤ x ∧ i = .loadRegs x

/-- The writers of memory (10_state.md R32). -/
abbrev Instr.WritesMemory (i : Instr) : Prop := ∃ x, i = .ldB x ∨ i = .storeRegs x

/-- The jumps to an absolute address (40_system_control.md R103, R104, R105). -/
abbrev Instr.Jumps (i : Instr) : Prop := ∃ nnn, i = .jp nnn ∨ i = .call nnn ∨ i = .jpV0 nnn

end Sys2Proof

namespace Sys2Proof.Machine

/-- What instruction `i`, run on `s`, can answer. -/
inductive Effect (s : State) : Instr → State → Prop
  | halts : Effect s .halt { s with run := .halted }
  | raises (i : Instr) (c : Condition) (info : Word) : Effect s i (raise c info s)
  | jumps {i : Instr} (a : Word) (hi : i.Jumps) (ha : a.toNat ≤ 0x10FE) : Effect s i (s.jump a)
  | returns (k : Fin 16) (hk : s.sp.toNat = k.val + 1) :
    Effect s .ret (State.jump (s.readSlot k) { s with sp := s.sp - 1 })
  | calls (nnn : Addr) (h : s.sp.toNat < 16) :
    Effect s (.call nnn)
      (State.jump (addrWord nnn) { s with stack := s.stack.set s.sp.toNat (s.ip + 2) h, sp := s.sp + 1 })
  | skips (i : Instr) (c : Bool) : Effect s i (s.skipIf c)
  | writes {i : Instr} (x : Reg) (r : Byte) (hi : i.WritesV x) : Effect s i (s.writeResult x r)
  | writesFlag {i : Instr} (x : Reg) (r f : Byte) (hi : i.WritesV x) (hcf : i.WritesCF) (hf : f = 0x00 ∨ f = 0x01) :
    Effect s i (s.writeResultFlag x r f)
  | indexes {i : Instr} (a : Word) (hi : i.WritesI) : Effect s i (s.setI a).advance
  | setsDelay (x : Reg) : Effect s (.ldDTVx x) (s.setDT (s.readV x)).advance
  | setsSound (x : Reg) : Effect s (.ldSTVx x) (s.setST (s.readV x)).advance
  | stores {i : Instr} (bs : List Byte) (hi : i.WritesMemory) (h : s.idx.toNat + bs.length ≤ 4096) :
    Effect s i { s with mem := s.mem.writeList s.idx.toNat bs, ip := s.ip + 2 }
  | loads (x : Reg) (v : Vector Byte 16) (hv : ∀ j : Reg, ¬ j ≤ x → v[j.val] = s.readV j) :
    Effect s (.loadRegs x) { s with v := v, ip := s.ip + 2 }
  | clears : Effect s .cls (s.send .displayClear).advance
  | asksRandom (x : Reg) (kk r : Byte) : Effect s (.rnd x kk) (s.afterRandom.writeResult x r)
  | draws (x y : Reg) (n : Fin 16) (a b : Byte) (sprite : List Byte) (c : Bool) :
    Effect s (.drw x y n) ((s.afterDraw a b sprite).setCF (collisionFlag c)).advance
  | asksPressed (i : Instr) (k : Byte) (c : Bool) : Effect s i ((s.afterPressed k).skipIf c)
  | waits (x : Reg) : Effect s (.ldVxK x) s.afterKeyWait
  | getsKey (x : Reg) (b : Byte) : Effect s (.ldVxK x) (s.afterKeyWait.writeResult x b)

theorem Effect.of_next {i : Instr} {s t t' : State} (h : (.next t' : Result) = .next t) (he : Effect s i t') :
    Effect s i t := Host.Outcome.next.inj h ▸ he

theorem shrFlag_bit (a : Byte) : shrFlag a = 0x00 ∨ shrFlag a = 0x01 := by
  have := toNat_shrFlag a
  bv_omega

theorem shlFlag_bit (a : Byte) : shlFlag a = 0x00 ∨ shlFlag a = 0x01 := by
  have := toNat_shlFlag a
  bv_omega

theorem effect_of_ret {s t : State} (h : exec .ret s = .next t) : Effect s .ret t := by
  obtain h0 | ⟨k, hk⟩ | hgt := sp_cases s
  · exact .of_next ((exec_ret_of_empty h0).symm.trans h) (.raises _ _ _)
  · exact .of_next ((exec_ret_of_live hk).symm.trans h) (.returns k hk)
  · rw [exec_ret_of_illegal hgt] at h
    cases h

theorem effect_of_call {nnn : Addr} {s t : State} (h : exec (.call nnn) s = .next t) : Effect s (.call nnn) t := by
  rcases Nat.lt_trichotomy s.sp.toNat 16 with hlt | heq | hgt
  · exact .of_next ((exec_call_of_free nnn hlt).symm.trans h) (.calls nnn hlt)
  · exact .of_next ((exec_call_of_full nnn (BitVec.eq_of_toNat_eq heq)).symm.trans h) (.raises _ _ _)
  · rw [exec_call_of_illegal nnn hgt] at h
    cases h

/-- A store at I, inside memory or not. -/
theorem effect_of_storeAtI {i : Instr} (bs : List Byte) (s : State) (hi : i.WritesMemory) :
    Effect s i (s.storeAtI bs) := by
  rcases Nat.lt_or_ge 4096 (s.idx.toNat + bs.length) with hgt | hle
  · rw [storeAtI_of_gt hgt]
    exact .raises _ _ _
  · rw [storeAtI_of_le hle]
    exact .stores bs hi hle

theorem advance_setVBlock (bs : List Byte) (s : State) :
    (s.setVBlock bs).advance = { s with v := (s.setVBlock bs).v, ip := s.ip + 2 } := by simp [State.advance]

theorem effect_of_loadRegs {x : Reg} {s t : State} (h : exec (.loadRegs x) s = .next t) : Effect s (.loadRegs x) t := by
  rcases Nat.lt_or_ge 4096 (s.idx.toNat + (x.val + 1)) with hgt | hle
  · exact .of_next ((exec_of_accessLeavesMemory (.inr (.inl ⟨x, .inr rfl, hgt⟩))).symm.trans h) (.raises _ _ _)
  · rw [exec_loadRegs_of_le hle, advance_setVBlock] at h
    exact .of_next h (.loads x _ fun j hj => (readV_setVBlock_readList s.mem s.idx.toNat x j s).trans (if_neg hj))

theorem effect_of_drw {x y : Reg} {n : Fin 16} {s t : State} (h : exec (.drw x y n) s = .next t) :
    Effect s (.drw x y n) t := by
  by_cases hb : n.val = 0 ∨ s.idx.toNat + n.val ≤ 4096
  · exact .of_next ((exec_drw_of_le hb).symm.trans h) (.draws x y n _ _ _ _)
  · have hleaves : s.AccessLeavesMemory (.drw x y n) := .inr (.inr ⟨x, y, n, rfl, by omega, by omega⟩)
    exact .of_next ((exec_of_accessLeavesMemory hleaves).symm.trans h) (.raises _ _ _)

theorem effect_of_ldVxK {x : Reg} {s t : State} (h : exec (.ldVxK x) s = .next t) : Effect s (.ldVxK x) t := by
  cases hk : s.keyWaitAnswer with
  | none => exact .of_next ((exec_ldVxK_of_none hk).symm.trans h) (.waits x)
  | some k => exact .of_next ((exec_ldVxK_of_some hk).symm.trans h) (.getsKey x _)

/-- Every instruction has one of the effects. -/
theorem exec_effect {i : Instr} {s t : State} (h : exec i s = .next t) : Effect s i t := by
  cases i with
  | halt => exact .of_next h .halts
  | cls => exact .of_next h .clears
  | ret => exact effect_of_ret h
  | jp nnn =>
    have hle : (addrWord nnn).toNat ≤ 0x10FE := by have := nnn.isLt; rw [toNat_addrWord]; omega
    exact .of_next h (.jumps _ ⟨nnn, .inl rfl⟩ hle)
  | call nnn => exact effect_of_call h
  | jpV0 nnn =>
    have hle : (addrWord nnn + byteWord (s.readV 0)).toNat ≤ 0x10FE := by
      have := nnn.isLt
      have := (s.readV 0).isLt
      rw [toNat_addrWord_add_byteWord]
      omega
    exact .of_next h (.jumps _ ⟨nnn, .inr (.inr rfl)⟩ hle)
  | seImm | sneImm | seReg | sneReg => exact .of_next h (.skips _ _)
  | unrecognized w => exact .of_next h (.skips _ false)
  | ldImm | addImm | ldReg | orReg | andReg | xorReg | ldVxDT => exact .of_next h (.writes _ _ (by simp [Instr.WritesV]))
  | addReg | subReg | subnReg =>
    exact .of_next h (.writesFlag _ _ _ (by simp [Instr.WritesV]) (by simp [Instr.WritesCF]) (flagByte_bit _))
  | shr => exact .of_next h (.writesFlag _ _ _ (by simp [Instr.WritesV]) (by simp [Instr.WritesCF]) (shrFlag_bit _))
  | shl => exact .of_next h (.writesFlag _ _ _ (by simp [Instr.WritesV]) (by simp [Instr.WritesCF]) (shlFlag_bit _))
  | ldI | addI | ldF => exact .of_next h (.indexes _ (by simp [Instr.WritesI]))
  | rnd x kk => exact .of_next h (.asksRandom x kk _)
  | drw => exact effect_of_drw h
  | skp | sknp => exact .of_next h (.asksPressed _ _ _)
  | ldVxK => exact effect_of_ldVxK h
  | ldDTVx x => exact .of_next h (.setsDelay x)
  | ldSTVx x => exact .of_next h (.setsSound x)
  | ldB | storeRegs => exact .of_next h (effect_of_storeAtI _ _ (by simp [Instr.WritesMemory]))
  | loadRegs => exact effect_of_loadRegs h

namespace Effect

variable {s t : State} {i : Instr}

theorem cf (h : Effect s i t) : t.cf = s.cf ∨ i.WritesCF ∧ (t.cf = 0x00 ∨ t.cf = 0x01) := by
  cases h with
  | writesFlag _ _ _ _ hcf hf => exact .inr ⟨hcf, hf⟩
  | draws _ _ _ _ _ _ c => exact .inr ⟨by simp [Instr.WritesCF], flagByte_bit c⟩
  | _ => exact .inl rfl

theorem idx (h : Effect s i t) : t.idx = s.idx ∨ i.WritesI := by
  cases h with
  | indexes _ hi => exact .inr hi
  | _ => exact .inl rfl

theorem stack (h : Effect s i t) :
    (t.sp = s.sp ∧ t.stack = s.stack) ∨
    (i = .ret ∧ t.sp = s.sp - 1 ∧ t.stack = s.stack) ∨
    ((∃ nnn, i = .call nnn) ∧ ∃ h : s.sp.toNat < 16,
      t.sp = s.sp + 1 ∧ t.stack = s.stack.set s.sp.toNat (s.ip + 2) h) := by
  cases h with
  | returns => exact .inr (.inl ⟨rfl, rfl, rfl⟩)
  | calls nnn h => exact .inr (.inr ⟨⟨nnn, rfl⟩, h, rfl, rfl⟩)
  | _ => exact .inl ⟨rfl, rfl⟩

theorem dt (h : Effect s i t) : t.dt = s.dt ∨ ∃ x, i = .ldDTVx x ∧ t.dt = s.readV x := by
  cases h with
  | setsDelay x => exact .inr ⟨x, rfl, rfl⟩
  | _ => exact .inl rfl

theorem st (h : Effect s i t) : t.st = s.st ∨ ∃ x, i = .ldSTVx x ∧ t.st = s.readV x := by
  cases h with
  | setsSound x => exact .inr ⟨x, rfl, rfl⟩
  | _ => exact .inl rfl

theorem mem (h : Effect s i t) : t.mem = s.mem ∨
    i.WritesMemory ∧ ∃ bs, s.idx.toNat + bs.length ≤ 4096 ∧ t.mem = s.mem.writeList s.idx.toNat bs := by
  cases h with
  | stores bs hi hle => exact .inr ⟨hi, bs, hle, rfl⟩
  | _ => exact .inl rfl

theorem readV (h : Effect s i t) (j : Reg) : t.readV j = s.readV j ∨ i.WritesV j := by
  have hwrite : ∀ (x : Reg) (r : Byte), i.WritesV x → (if j = x then r else s.readV j) = s.readV j ∨ i.WritesV j := by
    intro x r hi
    split
    · next hj => exact .inr (hj ▸ hi)
    · exact .inl rfl
  cases h with
  | writes x r hi => simpa using hwrite x r hi
  | writesFlag x r f hi => simpa using hwrite x r hi
  | asksRandom x kk r => simpa using hwrite x r (by simp [Instr.WritesV])
  | getsKey x b => simpa using hwrite x b (by simp [Instr.WritesV])
  | loads x v hv =>
    by_cases hj : j ≤ x
    · exact .inr (by simp [Instr.WritesV, hj])
    · exact .inl (hv j hj)
  | _ => exact .inl rfl

/-- Where an instruction leaves IP: in sequence, at a live stack entry, or where a jump says. -/
theorem ip (h : Effect s i t) :
    (t.ip = s.ip ∨ t.ip = s.ip + 2 ∨ t.ip = s.ip + 4) ∨
    (∃ k : Fin 16, k.val < s.sp.toNat ∧ t.ip = s.readSlot k) ∨
    (i.Jumps ∧ t.ip.toNat ≤ 0x10FE) := by
  have hskip (c : Bool) : (s.skipIf c).ip = s.ip + 2 ∨ (s.skipIf c).ip = s.ip + 4 := by cases c <;> simp
  cases h with
  | halts | raises | waits => exact .inl (.inl rfl)
  | jumps a hi ha => exact .inr (.inr ⟨hi, ha⟩)
  | returns k hk => exact .inr (.inl ⟨k, by omega, rfl⟩)
  | calls nnn =>
    refine .inr (.inr ⟨⟨nnn, .inr (.inl rfl)⟩, ?_⟩)
    have := nnn.isLt
    rw [jump_ip, toNat_addrWord]
    omega
  | skips _ c | asksPressed _ _ c => exact .inl (.inr (hskip c))
  | _ => exact .inl (.inr (.inl rfl))

/-- What an instruction does to the environment's side, the trace aside, which the cycle appends to. -/
theorem env (h : Effect s i t) :
    t.env.fontBase = s.env.fontBase ∧ t.env.moves = s.env.moves ∧ t.env.trace = s.env.trace ∧
      (t.env.requests = s.env.requests ∨ ∃ q, t.env.requests = s.env.requests ++ [q]) := by
  cases h with
  | clears | asksRandom | draws | asksPressed | waits | getsKey => exact ⟨rfl, rfl, rfl, .inr ⟨_, rfl⟩⟩
  | _ => exact ⟨rfl, rfl, rfl, .inl rfl⟩

end Effect

/-- Settles O52: cell by cell, the effects that write it name their instructions. -/
theorem onlyTheListedInstructionsWriteEachCell : Obligations.OnlyTheListedInstructionsWriteEachCell := by
  intro i s t h
  have he := exec_effect h
  refine ⟨fun hne => (he.cf.resolve_left hne).1, fun hne => he.idx.resolve_left hne, fun hne => ?_, fun hne => ?_,
    fun hne => ?_, fun hne => ?_, fun hne => (he.mem.resolve_left hne).1, fun hne => ?_,
    fun j hne => (he.readV j).resolve_left hne⟩
  · obtain ⟨hsp, -⟩ | ⟨hi, -⟩ | ⟨hi, -⟩ := he.stack
    · exact absurd hsp hne
    · exact .inl hi
    · exact .inr hi
  · obtain ⟨-, hstack⟩ | ⟨-, -, hstack⟩ | ⟨hi, -⟩ := he.stack
    · exact absurd hstack hne
    · exact absurd hstack hne
    · exact hi
  · obtain ⟨x, hi, -⟩ := he.dt.resolve_left hne
    exact ⟨x, hi⟩
  · obtain ⟨x, hi, -⟩ := he.st.resolve_left hne
    exact ⟨x, hi⟩
  · obtain ⟨hrun, -⟩ | ⟨hi, -⟩ | ⟨-, -, rfl⟩ | ⟨-, -, rfl⟩ | ⟨-, rfl⟩ := exec_run_cases h
    · exact absurd hrun hne
    · exact .inl hi
    all_goals exact .inr rfl

end Sys2Proof.Machine
end

section
/-! What a step can do, said once (00_scope.md R8): one constructor of `StepEffect` for each move that answers a next state,
with its cause; then the statements over all steps. -/

namespace Sys2Proof.Machine

/-- What one step of `s` can answer. -/
inductive StepEffect (s : State) : State → Prop
  | idles (hr : s.run ≠ .running) : StepEffect s s.taken
  | stops (hr : s.run = .running) (hm : s.env.moves.head? = some (.cycle true)) :
    StepEffect s { s.taken with run := .stopped }
  | faults (c : Condition) (hc : s.AtCycle) (hf : fetchCheck s.ip = some c) : StepEffect s (raise c s.ip s.taken)
  | executes {t : State} (hc : s.AtCycle) (hl : s.FetchLegal)
    (he : exec (decode s.fetchWord) (s.taken.emitTrace s.fetchWord) = .next t) : StepEffect s t
  | ticks (hr : s.run = .running) : StepEffect s { s.taken with dt := timerTick s.dt, st := timerTick s.st }
  | resets (hm : s.env.moves.head? = some .reset) : StepEffect s s.taken.hostReset
  | loads (bytes : List Byte) (hr : s.run = .idle) : StepEffect s (s.taken.loadRom bytes)
  | starts (hr : s.run = .idle) (hm : s.env.moves.head? = some .start) : StepEffect s s.taken.start

/-- A cycle, as a step's effect, where the list of moves says that it is the core's turn. -/
theorem cycle_effect {stop : Bool} {s t : State}
    (hm : (s.env.moves = [] ∧ stop = false) ∨ s.env.moves.head? = some (.cycle stop)) (h : cycle stop s.taken = .next t) :
    StepEffect s t := by
  have hlow : stop = false → s.env.moves = [] ∨ s.env.moves.head? = some (.cycle false) := by
    rintro rfl
    exact hm.imp_left And.left
  obtain ⟨hr, rfl⟩ | ⟨hr, rfl, rfl⟩ | ⟨hr, hstop, c, hf, rfl⟩ | ⟨hr, hstop, hf, he⟩ := cycle_cases h
  · exact .idles hr
  · exact .stops hr (hm.resolve_left fun h => nomatch h.2)
  · exact .faults c ⟨hr, hlow hstop⟩ hf
  · exact .executes ⟨hr, hlow hstop⟩ (fetchCheck_none_iff.mp hf) he

/-- Every step has one of the effects. -/
theorem step_effect {s t : State} (h : step s = .next t) : StepEffect s t := by
  obtain ⟨hm, hcycle⟩ | ⟨m, rest, hm, hmove⟩ := step_cases h
  · exact cycle_effect (.inl ⟨hm, rfl⟩) (by rwa [taken_of_nil hm])
  · have htaken : s.taken = s.setMoves rest := by rw [State.taken, hm]; rfl
    have hhead : s.env.moves.head? = some m := by rw [hm]; rfl
    rw [← htaken] at hmove
    obtain ⟨stop, rfl, hcycle⟩ | ⟨rfl, rfl⟩ | ⟨rfl, rfl⟩ | ⟨bytes, rfl, hr, rfl⟩ | ⟨rfl, hr, rfl⟩ := takeMove_cases hmove
    · exact cycle_effect (.inr hhead) hcycle
    · by_cases hr : s.run = .running
      · rw [tick_of_running (s := s.taken) hr]
        exact .ticks hr
      · rw [tick_of_not_running (s := s.taken) hr]
        exact .idles hr
    · exact .resets hhead
    · exact .loads bytes hr
    · exact .starts hr hhead

/-- Settles O48: a step that ends in FATAL is one raise, of a fetch condition or of the instruction's own. -/
theorem fatalConditionsArePrecise : Obligations.FatalConditionsArePrecise := by
  intro s t hr h hf
  cases step_effect h with
  | idles hr' => exact absurd hr hr'
  | faults c => exact ⟨rfl, rfl, code_bounds c⟩
  | executes _ _ he =>
    obtain ⟨-, -, rfl⟩ | ⟨-, -, rfl⟩ | ⟨-, rfl⟩ := exec_fatal_cases (s := s.taken.emitTrace s.fetchWord) hr he hf
    all_goals exact ⟨rfl, rfl, code_bounds _⟩
  | ticks => exact absurd (hr.symm.trans hf) (by decide)
  | loads _ hidle => exact absurd (hr.symm.trans hidle) (by decide)
  | stops | resets | starts => cases hf

/-- An instruction run in RUNNING records AddressOutOfBounds exactly when its data access leaves memory. -/
theorem exec_outOfBounds_iff {i : Instr} {s t : State} (hr : s.run = .running) (h : exec i s = .next t) :
    (t.run = .fatal ∧ t.fault.code = 3) ↔ s.AccessLeavesMemory i := by
  constructor
  · rintro ⟨hf, hcode⟩
    obtain ⟨-, -, rfl⟩ | ⟨-, -, rfl⟩ | ⟨hleaves, -⟩ := exec_fatal_cases hr h hf
    · exact absurd hcode (by decide : Condition.stackOverflow.code ≠ 3)
    · exact absurd hcode (by decide : Condition.stackUnderflow.code ≠ 3)
    · exact hleaves
  · intro hleaves
    obtain rfl := Host.Outcome.next.inj ((exec_of_accessLeavesMemory hleaves).symm.trans h)
    exact ⟨rfl, rfl⟩

theorem exec_outOfBounds_info {i : Instr} {s t : State} (hr : s.run = .running) (h : exec i s = .next t)
    (hf : t.run = .fatal) (hcode : t.fault.code = 3) : t.fault.info = s.idx := by
  have hleaves := (exec_outOfBounds_iff hr h).mp ⟨hf, hcode⟩
  obtain rfl := Host.Outcome.next.inj ((exec_of_accessLeavesMemory hleaves).symm.trans h)
  rfl

/-- Settles O47: above 0x0FFE the fetch raises it; at a legal address it is the instruction's; the other two fetch conditions
record a code of their own. -/
theorem outOfBoundsExactlyWhenAnAccessLeavesMemory : Obligations.OutOfBoundsExactlyWhenAnAccessLeavesMemory := by
  intro s t hm hr h
  have hc : s.AtCycle := ⟨hr, hm⟩
  cases hf : fetchCheck s.ip with
  | none =>
    have hlegal := fetchCheck_none_iff.mp hf
    obtain ⟨hlo, hhi, heven⟩ := hlegal
    have hhigh : ¬ 0x0FFE < s.ip.toNat := by omega
    rw [step_of_fetch hc ⟨hlo, hhi, heven⟩] at h
    refine ⟨(exec_outOfBounds_iff (s := s.taken.emitTrace s.fetchWord) hr h).trans
      ⟨fun hleaves => .inr ⟨hlo, hhi, heven, hleaves⟩, fun hor => ?_⟩, fun hfatal hcode => ?_⟩
    · obtain ⟨-, -, -, hleaves⟩ := hor.resolve_left hhigh
      exact hleaves
    · rw [if_neg hhigh]
      exact exec_outOfBounds_info (s := s.taken.emitTrace s.fetchWord) hr h hfatal hcode
  | some c =>
    obtain rfl := Host.Outcome.next.inj ((step_of_condition hc hf).symm.trans h)
    obtain ⟨rfl, hhigh⟩ | ⟨rfl, hlow⟩ | ⟨rfl, hlo, hhi, hodd⟩ := fetchCheck_cases hf
    · exact ⟨⟨fun _ => .inl hhigh, fun _ => ⟨rfl, rfl⟩⟩, fun _ _ => (if_pos hhigh).symm⟩
    · have hcode : Condition.reservedFetch.code ≠ 3 := by decide
      exact ⟨⟨fun h => absurd h.2 hcode, fun h => by omega⟩, fun _ h => absurd h hcode⟩
    · have hcode : Condition.misalignedFetch.code ≠ 3 := by decide
      exact ⟨⟨fun h => absurd h.2 hcode, fun h => by omega⟩, fun _ h => absurd h hcode⟩

/-- A cycle that leaves RUNNING, HALT aside, does so by the fetch or by the instruction's own condition. -/
theorem exec_leaves_running {i : Instr} {s t : State} (h : exec i s = .next t) (hne : t.run ≠ s.run) :
    (t.run = .halted ∧ i = .halt) ∨ (t.run = .fatal ∧ s.OwnCondition i) := by
  obtain ⟨hrun, -⟩ | ⟨hi, rfl⟩ | ⟨hi, hsp, rfl⟩ | ⟨hi, hsp, rfl⟩ | ⟨hleaves, rfl⟩ := exec_run_cases h
  · exact absurd hrun hne
  · exact .inl ⟨rfl, hi⟩
  · exact .inr ⟨rfl, .inl ⟨hi, hsp⟩⟩
  · exact .inr ⟨rfl, .inr (.inl ⟨hi, hsp⟩)⟩
  · exact .inr ⟨rfl, .inr (.inr hleaves)⟩

/-- A state in RUNNING is in no other run state: the rows of the table for those say nothing of it. -/
theorem tabled_of_running {s : State} {p q r : Prop} (hr : s.run = .running) (hp : p) :
    (s.run = .idle → q) ∧ (s.run = .running → p) ∧ (s.Over → r) := by
  simp [State.Over, hr, hp]

/-- Settles O53: the run state after each effect, and its cause. -/
theorem runStateChangesOnlyAsTabled : Obligations.RunStateChangesOnlyAsTabled := by
  intro s t h hne
  cases step_effect h with
  | idles | ticks | loads => exact absurd rfl hne
  | stops hr hm => exact tabled_of_running hr (.inr (.inl ⟨rfl, hm⟩))
  | faults c hc hf =>
    have hillegal : ¬ s.FetchLegal := fun hl => by
      rw [fetchCheck_none_iff.mpr hl] at hf
      cases hf
    exact tabled_of_running hc.1 (.inr (.inr (.inl ⟨rfl, hc, .inl hillegal⟩)))
  | executes hc hl he =>
    refine tabled_of_running hc.1 ?_
    obtain ⟨hrun, hi⟩ | ⟨hrun, hown⟩ := exec_leaves_running he hne
    · exact .inl ⟨hrun, hc, hl, hi⟩
    · exact .inr (.inr (.inl ⟨hrun, hc, .inr hown⟩))
  | resets hm =>
    exact ⟨fun hidle => absurd hidle.symm hne, fun _ => .inr (.inr (.inr ⟨rfl, hm⟩)), fun _ => ⟨rfl, hm⟩⟩
  | starts hr hm =>
    refine ⟨fun _ => ⟨rfl, hm⟩, fun hrunning => absurd hrunning.symm hne, fun hover => ?_⟩
    simp [State.Over, hr] at hover

/-- Settles O54: a tick lowers, a Reset clears, and of the instructions one writes each timer. -/
theorem timersRiseOnlyByAWrite : Obligations.TimersRiseOnlyByAWrite := by
  intro s t h
  cases step_effect h with
  | idles | stops | faults | loads | starts =>
    exact ⟨fun hlt => absurd hlt (lt_irrefl _), fun hlt => absurd hlt (lt_irrefl _)⟩
  | executes hc hl he =>
    have heff := exec_effect he
    refine ⟨fun hlt => ⟨hc, hl, ?_⟩, fun hlt => ⟨hc, hl, ?_⟩⟩
    · exact heff.dt.resolve_left fun heq => absurd (congrArg BitVec.toNat heq) hlt.ne'
    · exact heff.st.resolve_left fun heq => absurd (congrArg BitVec.toNat heq) hlt.ne'
  | ticks => exact ⟨fun hlt => absurd hlt (timerTick_le s.dt).not_gt, fun hlt => absurd hlt (timerTick_le s.st).not_gt⟩
  | resets => exact ⟨fun hlt => absurd hlt (Nat.not_lt_zero _), fun hlt => absurd hlt (Nat.not_lt_zero _)⟩

/-- Settles O56: only a cycle adds to the outputs, its trace entry and what the instruction sends. -/
theorem eachStepTakesOneMoveAndOutputsOnlyGrow : Obligations.EachStepTakesOneMoveAndOutputsOnlyGrow := by
  intro s t h
  cases step_effect h with
  | executes _ _ he =>
    obtain ⟨hfont, hmoves, htrace, hrequests⟩ := (exec_effect he).env
    exact ⟨hfont, hmoves, .inr ⟨_, htrace⟩, hrequests⟩
  | _ => exact ⟨rfl, rfl, .inl rfl, .inl rfl⟩

end Sys2Proof.Machine
end

section
/-! The invariant of the machine's states, and that every step keeps it (10_state.md, 40_system_control.md R102,
70_reset_and_hazards.md section 2). -/

namespace Sys2Proof.Machine

/-- The rule of a live stack entry: an even address from 0x0202 to 0x1000 (40_system_control.md R102). -/
abbrev ReturnAddress (a : Word) : Prop := a.toNat % 2 = 0 ∧ 0x0202 ≤ a.toNat ∧ a.toNat ≤ 0x1000

/-- Two and four bytes above a legal fetch address nothing wraps. -/
theorem toNat_ip_add {s : State} (hl : s.FetchLegal) :
    (s.ip + 2).toNat = s.ip.toNat + 2 ∧ (s.ip + 4).toNat = s.ip.toNat + 4 := by
  obtain ⟨-, hhi, -⟩ := hl
  constructor <;> bv_omega

/-- What CALL pushes at a legal fetch address is a return address. -/
theorem returnAddress_of_fetchLegal {s : State} (hl : s.FetchLegal) : ReturnAddress (s.ip + 2) := by
  obtain ⟨hlo, hhi, heven⟩ := hl
  rw [ReturnAddress, (toNat_ip_add ⟨hlo, hhi, heven⟩).1]
  omega

/-- The environment's side takes no part in the invariant. -/
theorem State.Inv.withEnv {s : State} (h : s.Inv) (e : Env) : State.Inv { s with env := e } where
  memWf := h.memWf
  spLe := h.spLe
  slots := h.slots
  cfBit := h.cfBit
  ipLe := h.ipLe
  faultRecord := h.faultRecord
  idleReset hidle := by
    obtain ⟨heq, hbytes⟩ := h.idleReset hidle
    exact ⟨congrArg (fun u : State => { u with env := e }) heq, hbytes⟩

theorem State.Inv.fault_of_running {s : State} (h : s.Inv) (hr : s.run = .running) : s.fault = ⟨0, 0x0000⟩ :=
  (h.faultRecord.resolve_left fun hf => absurd (hr.symm.trans hf.1) (by decide)).2

/-- A fatal condition may be raised in any state of the invariant. -/
theorem State.Inv.raise {s : State} (h : s.Inv) (c : Condition) (info : Word) :
    (Sys2Proof.Machine.raise c info s).Inv :=
  { h with
    faultRecord := .inl ⟨rfl, code_bounds c⟩
    idleReset := nofun }

theorem State.Inv.stop {s : State} (h : s.Inv) (hr : s.run = .running) : State.Inv { s with run := .stopped } :=
  { h with
    faultRecord := .inr ⟨nofun, h.fault_of_running hr⟩
    idleReset := nofun }

/-- Outside IDLE the timers may hold anything. -/
theorem State.Inv.withTimers {s : State} (h : s.Inv) (hr : s.run = .running) (d e : Byte) :
    State.Inv { s with dt := d, st := e } :=
  { h with idleReset := fun hidle => absurd (hr.symm.trans hidle) (by decide) }

/-- Settles O50: with SP at 0 no stack entry is live. -/
theorem resetMeetsTheInvariant : Obligations.ResetMeetsTheInvariant where
  memWf := rfl
  spLe := by decide
  slots _ hk := absurd hk (Nat.not_lt_zero _)
  cfBit := .inl rfl
  ipLe := by decide
  faultRecord := .inr ⟨by decide, rfl⟩
  idleReset _ := ⟨rfl, fun _ _ => rfl⟩

/-- In IDLE the program region alone is written. -/
theorem State.Inv.loadRom {s : State} (h : s.Inv) (hr : s.run = .idle) (bytes : List Byte) : (s.loadRom bytes).Inv :=
  { h with
    memWf := Memory.wf_writeList h.memWf (romBytes_fit bytes)
    idleReset := fun _ => by
      obtain ⟨heq, hbytes⟩ := h.idleReset hr
      refine ⟨congrArg (State.loadRom bytes) heq, fun a ha => ?_⟩
      exact ((frame_loadRom bytes s).bytes a (.inl ha)).trans (hbytes a ha) }

theorem State.Inv.start {s : State} (h : s.Inv) (hr : s.run = .idle) : s.start.Inv :=
  { h with
    ipLe := (by decide : (0x0200 : Word).toNat ≤ 0x10FE)
    faultRecord := .inr ⟨nofun, (h.faultRecord.resolve_left fun hf => absurd (hr.symm.trans hf.1) (by decide)).2⟩
    idleReset := nofun }

section
variable {i : Instr} {s t : State}

theorem exec_keeps_memWf (h : s.Inv) (he : exec i s = .next t) : t.mem.wf = true := by
  obtain hmem | ⟨-, bs, hle, hmem⟩ := (exec_effect he).mem
  · exact hmem ▸ h.memWf
  · exact hmem ▸ Memory.wf_writeList h.memWf hle

theorem exec_keeps_cfBit (h : s.Inv) (he : exec i s = .next t) : t.cf = 0x00 ∨ t.cf = 0x01 := by
  obtain hcf | ⟨-, hcf⟩ := (exec_effect he).cf
  · exact hcf ▸ h.cfBit
  · exact hcf

/-- SP stays in range and live entries stay return addresses: a return uncovers a live entry, a call pushes one. -/
theorem exec_keeps_stack (h : s.Inv) (hl : s.FetchLegal) (he : exec i s = .next t) :
    t.sp.toNat ≤ 16 ∧ ∀ k : Fin 16, k.val < t.sp.toNat → ReturnAddress (t.readSlot k) := by
  cases exec_effect he with
  | returns k hk =>
    have hsp := toNat_sub_one hk
    exact ⟨hsp.le.trans k.isLt.le, fun j hj => h.slots j ((hj.trans_eq hsp).trans (by omega))⟩
  | calls nnn hlt =>
    have hsp := toNat_add_one (show s.sp.toNat < 255 by omega)
    refine ⟨hsp.le.trans hlt, fun j hj => ?_⟩
    have hj : j.val < s.sp.toNat + 1 := hj.trans_eq hsp
    rw [jump_readSlot, readSlot_push]
    split
    · exact returnAddress_of_fetchLegal hl
    · exact h.slots j (by omega)
  | _ => exact ⟨h.spLe, h.slots⟩

theorem exec_keeps_ipLe (h : s.Inv) (hl : s.FetchLegal) (he : exec i s = .next t) : t.ip.toNat ≤ 0x10FE := by
  obtain ⟨h2, h4⟩ := toNat_ip_add hl
  obtain ⟨-, hhi, -⟩ := hl
  obtain (hip | hip | hip) | ⟨k, hk, hip⟩ | ⟨-, hle⟩ := (exec_effect he).ip
  · exact hip ▸ h.ipLe
  · rw [hip]; omega
  · rw [hip]; omega
  · obtain ⟨-, -, hslot⟩ := h.slots k hk
    rw [hip]
    omega
  · exact hle

/-- From RUNNING an instruction leaves an empty record and stays in RUNNING or halts, or raises a condition. -/
theorem exec_keeps_faultRecord (h : s.Inv) (hr : s.run = .running) (he : exec i s = .next t) :
    t.run ≠ .idle ∧ ((t.run = .fatal ∧ 1 ≤ t.fault.code.toNat ∧ t.fault.code.toNat ≤ 5) ∨
      (t.run ≠ .fatal ∧ t.fault = ⟨0, 0x0000⟩)) := by
  have hfault := h.fault_of_running hr
  obtain ⟨hrun, hf⟩ | ⟨-, rfl⟩ | ⟨-, -, rfl⟩ | ⟨-, -, rfl⟩ | ⟨-, rfl⟩ := exec_run_cases he
  · rw [hrun, hf, hr]
    exact ⟨nofun, .inr ⟨nofun, hfault⟩⟩
  · exact ⟨nofun, .inr ⟨nofun, hfault⟩⟩
  all_goals exact ⟨nofun, .inl ⟨rfl, code_bounds _⟩⟩

/-- An instruction run in RUNNING from a legal fetch address keeps the invariant. -/
theorem State.Inv.exec (h : s.Inv) (hr : s.run = .running) (hl : s.FetchLegal)
    (he : Sys2Proof.Machine.exec i s = .next t) : t.Inv :=
  have hstack := exec_keeps_stack h hl he
  have hfault := exec_keeps_faultRecord h hr he
  { memWf := exec_keeps_memWf h he
    spLe := hstack.1
    slots := hstack.2
    cfBit := exec_keeps_cfBit h he
    ipLe := exec_keeps_ipLe h hl he
    faultRecord := hfault.2
    idleReset := fun hidle => absurd hidle hfault.1 }

end

/-- Settles O49: each effect of a step keeps the invariant, the instruction's by `State.Inv.exec`. -/
theorem stepKeepsTheInvariant : Obligations.StepKeepsTheInvariant := by
  intro s t h hstep
  have htaken : s.taken.Inv := h.withEnv _
  cases step_effect hstep with
  | idles => exact htaken
  | stops hr => exact htaken.stop hr
  | faults c => exact htaken.raise c s.ip
  | executes hc hl he =>
    have htraced : (s.taken.emitTrace s.fetchWord).Inv := htaken.withEnv _
    exact htraced.exec hc.1 hl he
  | ticks hr => exact htaken.withTimers hr _ _
  | resets => exact resetMeetsTheInvariant.withEnv s.taken.env
  | loads bytes hr => exact htaken.loadRom hr bytes
  | starts hr => exact htaken.start hr

/-- Settles O55: in sequence IP moves by an even number, and a live stack entry is even. -/
theorem onlyJumpsAndCallsMakeIPOdd : Obligations.OnlyJumpsAndCallsMakeIPOdd := by
  intro i s t h hlo hhi heven he hodd
  obtain ⟨h2, h4⟩ := toNat_ip_add ⟨hlo, hhi, heven⟩
  obtain (hip | hip | hip) | ⟨k, hk, hip⟩ | ⟨hjumps, -⟩ := (exec_effect he).ip
  · rw [hip] at hodd; omega
  · rw [hip] at hodd; omega
  · rw [hip] at hodd; omega
  · obtain ⟨hslot, -⟩ := h.slots k hk
    rw [hip] at hodd
    omega
  · exact hjumps

end Sys2Proof.Machine
end

section
/-! CF and ST flow into nothing else (10_state.md sections 3 and 7, decision D2): the meaning of every instruction and move,
run on two states that differ only there, answers two states that differ only there. -/

namespace Sys2Proof.Machine

/-- `s` with other contents of CF and ST. -/
def State.withCFST (c d : Byte) (s : State) : State := { s with cf := c, st := d }

/-- From `s` with any other CF and ST, `f` answers what it answers from `s`, with some CF and ST; CF is written with the same
value in both, or left alone in both. -/
def FlowsOnlyToCFST (f : State → Result) (s : State) : Prop :=
  ∀ (t : State) (c d : Byte), f s = .next t →
    ∃ c' d', f (s.withCFST c d) = .next (t.withCFST c' d') ∧ (c' = t.cf ∨ (c' = c ∧ t.cf = s.cf))

section
variable {f : State → Result} {s u : State}

/-- Where `f` carries CF and ST along. -/
theorem flowsOnly_of_carried (hs : f s = .next u) (hf : ∀ c d, f (s.withCFST c d) = .next (u.withCFST c d))
    (hcf : u.cf = s.cf) : FlowsOnlyToCFST f s := by
  intro t c d h
  obtain rfl := Host.Outcome.next.inj (hs.symm.trans h)
  exact ⟨c, d, hf c d, .inr ⟨rfl, hcf⟩⟩

/-- Where `f` writes CF. -/
theorem flowsOnly_of_flag (hs : f s = .next u) (hf : ∀ c d, f (s.withCFST c d) = .next (u.withCFST u.cf d)) :
    FlowsOnlyToCFST f s := by
  intro t c d h
  obtain rfl := Host.Outcome.next.inj (hs.symm.trans h)
  exact ⟨u.cf, d, hf c d, .inl rfl⟩

/-- Where `f` has no next state there is nothing to flow. -/
theorem flowsOnly_of_no_next (hs : ∀ t, f s ≠ .next t) : FlowsOnlyToCFST f s :=
  fun t _ _ h => absurd h (hs t)

end

section
variable (s : State)

theorem flowsOnly_ret : FlowsOnlyToCFST (exec .ret) s := by
  obtain h0 | ⟨k, hk⟩ | hgt := sp_cases s
  · exact flowsOnly_of_carried (exec_ret_of_empty h0) (fun _ _ => exec_ret_of_empty h0) rfl
  · exact flowsOnly_of_carried (exec_ret_of_live hk) (fun _ _ => exec_ret_of_live hk) rfl
  · exact flowsOnly_of_no_next fun t => by rw [exec_ret_of_illegal hgt]; nofun

theorem flowsOnly_call (nnn : Addr) : FlowsOnlyToCFST (exec (.call nnn)) s := by
  rcases Nat.lt_trichotomy s.sp.toNat 16 with hlt | heq | hgt
  · exact flowsOnly_of_carried (exec_call_of_free nnn hlt)
      (fun c d => exec_call_of_free (s := s.withCFST c d) nnn hlt) rfl
  · have hfull : s.sp = 16 := BitVec.eq_of_toNat_eq heq
    exact flowsOnly_of_carried (exec_call_of_full nnn hfull) (fun _ _ => exec_call_of_full nnn hfull) rfl
  · exact flowsOnly_of_no_next fun t => by rw [exec_call_of_illegal nnn hgt]; nofun

theorem flowsOnly_of_accessLeavesMemory {i : Instr} (h : s.AccessLeavesMemory i) : FlowsOnlyToCFST (exec i) s :=
  flowsOnly_of_carried (exec_of_accessLeavesMemory h) (fun _ _ => exec_of_accessLeavesMemory h) rfl

/-- A store at I, inside memory or not, carries CF and ST along. -/
theorem storeAtI_withCFST (bs : List Byte) (c d : Byte) :
    (s.withCFST c d).storeAtI bs = (s.storeAtI bs).withCFST c d ∧ (s.storeAtI bs).cf = s.cf := by
  rcases Nat.lt_or_ge 4096 (s.idx.toNat + bs.length) with hgt | hle
  · rw [storeAtI_of_gt hgt, storeAtI_of_gt (s := s.withCFST c d) hgt]
    exact ⟨rfl, rfl⟩
  · rw [storeAtI_of_le hle, storeAtI_of_le (s := s.withCFST c d) hle]
    exact ⟨rfl, rfl⟩

theorem flowsOnly_storeAtI (bs : List Byte) : FlowsOnlyToCFST (fun u => .next (u.storeAtI bs)) s :=
  flowsOnly_of_carried rfl (fun c d => congrArg _ (storeAtI_withCFST s bs c d).1) (storeAtI_withCFST s bs s.cf s.st).2

theorem flowsOnly_loadRegs (x : Reg) : FlowsOnlyToCFST (exec (.loadRegs x)) s := by
  rcases Nat.lt_or_ge 4096 (s.idx.toNat + (x.val + 1)) with hgt | hle
  · exact flowsOnly_of_accessLeavesMemory s (.inr (.inl ⟨x, .inr rfl, hgt⟩))
  · exact flowsOnly_of_carried (exec_loadRegs_of_le hle) (fun _ _ => exec_loadRegs_of_le hle) rfl

theorem flowsOnly_drw (x y : Reg) (n : Fin 16) : FlowsOnlyToCFST (exec (.drw x y n)) s := by
  by_cases hb : n.val = 0 ∨ s.idx.toNat + n.val ≤ 4096
  · exact flowsOnly_of_flag (exec_drw_of_le hb) fun _ _ => exec_drw_of_le hb
  · exact flowsOnly_of_accessLeavesMemory s (.inr (.inr ⟨x, y, n, rfl, by omega, by omega⟩))

theorem flowsOnly_ldVxK (x : Reg) : FlowsOnlyToCFST (exec (.ldVxK x)) s := by
  cases hk : s.keyWaitAnswer with
  | none => exact flowsOnly_of_carried (exec_ldVxK_of_none hk) (fun _ _ => exec_ldVxK_of_none hk) rfl
  | some k => exact flowsOnly_of_carried (exec_ldVxK_of_some hk) (fun _ _ => exec_ldVxK_of_some hk) rfl

/-- Instruction by instruction: the flagged ones and DRW write CF, LD ST writes ST, all others carry both along. -/
theorem flowsOnly_exec (i : Instr) : FlowsOnlyToCFST (exec i) s := by
  cases i with
  | addReg | subReg | shr | subnReg | shl => exact flowsOnly_of_flag rfl fun _ _ => rfl
  | ret => exact flowsOnly_ret s
  | call nnn => exact flowsOnly_call s nnn
  | drw x y n => exact flowsOnly_drw s x y n
  | ldSTVx x =>
    intro t c d h
    obtain rfl := Host.Outcome.next.inj h
    exact ⟨c, s.readV x, rfl, .inr ⟨rfl, rfl⟩⟩
  | ldVxK x => exact flowsOnly_ldVxK s x
  | ldB x => exact flowsOnly_storeAtI s (bcdDigits (s.readV x))
  | storeRegs x => exact flowsOnly_storeAtI s (s.readVBlock x)
  | loadRegs x => exact flowsOnly_loadRegs s x
  | _ => exact flowsOnly_of_carried rfl (fun _ _ => rfl) rfl

theorem flowsOnly_cycle (stop : Bool) : FlowsOnlyToCFST (cycle stop) s := by
  by_cases hr : s.run = .running
  · cases stop with
    | true => exact flowsOnly_of_carried (cycle_of_stop hr) (fun _ _ => cycle_of_stop hr) rfl
    | false =>
      cases hc : fetchCheck s.ip with
      | some c => exact flowsOnly_of_carried (cycle_of_condition hr hc) (fun _ _ => cycle_of_condition hr hc) rfl
      | none =>
        intro t c d h
        rw [cycle_of_fetch hr hc] at h
        rw [cycle_of_fetch (s := s.withCFST c d) hr hc]
        exact flowsOnly_exec (s.emitTrace s.fetchWord) _ t c d h
  · exact flowsOnly_of_carried (cycle_of_not_running hr) (fun _ _ => cycle_of_not_running hr) rfl

theorem flowsOnly_tick : FlowsOnlyToCFST (takeMove .tick) s := by
  intro t c d h
  obtain rfl := Host.Outcome.next.inj h
  by_cases hr : s.run = .running
  · rw [takeMove_tick, tick_of_running hr, tick_of_running (s := s.withCFST c d) hr]
    exact ⟨c, timerTick d, rfl, .inr ⟨rfl, rfl⟩⟩
  · rw [takeMove_tick, tick_of_not_running hr, tick_of_not_running (s := s.withCFST c d) hr]
    exact ⟨c, d, rfl, .inr ⟨rfl, rfl⟩⟩

theorem flowsOnly_takeMove (m : Move) : FlowsOnlyToCFST (takeMove m) s := by
  cases m with
  | cycle stop => exact flowsOnly_cycle s stop
  | tick => exact flowsOnly_tick s
  | reset =>
    intro t c d h
    obtain rfl := Host.Outcome.next.inj h
    exact ⟨0x00, 0x00, rfl, .inl rfl⟩
  | loadRom bytes =>
    by_cases hr : s.run = .idle
    · exact flowsOnly_of_carried (takeMove_loadRom hr) (fun _ _ => takeMove_loadRom hr) rfl
    · exact flowsOnly_of_no_next fun t => by rw [takeMove, if_neg hr]; nofun
  | start =>
    by_cases hr : s.run = .idle
    · exact flowsOnly_of_carried (takeMove_start hr) (fun _ _ => takeMove_start hr) rfl
    · exact flowsOnly_of_no_next fun t => by rw [takeMove, if_neg hr]; nofun

end

/-- Settles O51: a step is one cycle or one move. -/
theorem cfAndSTFlowIntoNothingElse : Obligations.CFAndSTFlowIntoNothingElse := by
  intro s t c d h
  cases hm : s.env.moves with
  | nil =>
    rw [step_of_nil hm] at h
    rw [step_of_nil (s := { s with cf := c, st := d }) hm]
    exact flowsOnly_cycle s false t c d h
  | cons m rest =>
    rw [step_of_cons hm] at h
    rw [step_of_cons (s := { s with cf := c, st := d }) hm]
    exact flowsOnly_takeMove (s.setMoves rest) m t c d h

end Sys2Proof.Machine
end
